-- ==== Sys2Proof/Word.lean ====
section
/-! DEFINITION. The machine word. Every register, memory byte, address, operand and the program counter is one
unsigned byte (R13, R22, R24, R40). -/

namespace Sys2Proof

/-- An 8-bit value (R13: "A byte is a value in 0..255"). -/
abbrev Byte := BitVec 8

/-- `wrap8(v)` of R14: `v mod 256` as a byte. -/
def wrap8 (n : Nat) : Byte := BitVec.ofNat 8 n

/-- The number of a register, 0 to 7 (R21). -/
abbrev RegIdx := Fin 8

/-- Register 7, the stack pointer by convention (R23). -/
abbrev sp : RegIdx := 7

end Sys2Proof
end

