-- ==== Sys2Proof/Config.lean ====
section
/-! DEFINITION. What an implementation fixes: the four parameters P1 to P4 of R11, and their defaults. P1 to P3 are
plain data that `Machine.State` carries and no step changes (log entry 1), so that a statement over all states is a
statement over all their values; P4 is an opaque constant. -/

namespace Sys2Proof

/-- The 21 mnemonics of the opcode table (R2, R64), the domain of parameter P1. -/
inductive Mnemonic where
  | hlt | ret
  | push | pop | prn | call | jmp | jeq | jne | not
  | ldi | st | add | mul | mod | cmp | and | or | xor | shl | shr
deriving DecidableEq, Repr

/-- Every mnemonic once, in the order of R64's table. -/
def Mnemonic.all : List Mnemonic :=
  [.hlt, .ret, .push, .pop, .prn, .call, .jmp, .jeq, .jne, .not,
   .ldi, .st, .add, .mul, .mod, .cmp, .and, .or, .xor, .shl, .shr]

/-- Parameter P1, `OPCODE_MAP` (R11): one byte for each of the 21 mnemonics. Plain data, so that a state can be
compared and written out; that it meets R63 is `OpcodeMap.wf` (Sys2Proof/Decode.lean). -/
structure OpcodeMap where
  hlt : Byte
  ret : Byte
  push : Byte
  pop : Byte
  prn : Byte
  call : Byte
  jmp : Byte
  jeq : Byte
  jne : Byte
  not : Byte
  ldi : Byte
  st : Byte
  add : Byte
  mul : Byte
  mod : Byte
  cmp : Byte
  and : Byte
  or : Byte
  xor : Byte
  shl : Byte
  shr : Byte
deriving DecidableEq, Repr

/-- The default `OPCODE_MAP`, R64's table. UNVERIFIED, unsafe: the source gives no opcode value, the bytes are the
spec's own default from general knowledge (D1, G1; log entry 2). -/
def OpcodeMap.default : OpcodeMap where
  hlt  := 0x01
  ret  := 0x11
  push := 0x45
  pop  := 0x46
  prn  := 0x47
  call := 0x50
  jmp  := 0x54
  jeq  := 0x55
  jne  := 0x56
  not  := 0x69
  ldi  := 0x82
  st   := 0x84
  add  := 0xA0
  mul  := 0xA2
  mod  := 0xA4
  cmp  := 0xA7
  and  := 0xA8
  or   := 0xAA
  xor  := 0xAB
  shl  := 0xAC
  shr  := 0xAD

/-- Parameter P3, `REG_INDEX_MODE` (R11, R204): what a register operand byte above 7 does. -/
inductive RegIndexMode where
  /-- The instruction raises `RegIndexFault` (the default). -/
  | fault
  /-- The index is the operand byte modulo 8. -/
  | mask3
deriving DecidableEq, Repr

/-- Parameters P1 to P3 of R11. DESIGN CHOICE, safe: they are carried by the state (log entry 1). -/
structure Params where
  /-- P1 `OPCODE_MAP`. -/
  opcodes : OpcodeMap
  /-- P2 `NOT_OR_XOR_AS_AND` (R12). -/
  notOrXorAsAnd : Bool
  /-- P3 `REG_INDEX_MODE`. -/
  regIndexMode : RegIndexMode
deriving DecidableEq, Repr

/-- The defaults R11 states. -/
def Params.default : Params :=
  { opcodes := OpcodeMap.default, notOrXorAsAnd := false, regIndexMode := .fault }

/-- Parameter P4, `DIVZERO_MSG`: the line the host shows for `DivZeroDiag`. It has no body because R11 gives it no
value ("none: opaque"; D8, log entry 11), so nothing can be proved of its characters. -/
opaque Config.divZeroMsg : List Char

end Sys2Proof
end

