-- ==== Sys2Proof/Syntax.lean ====
section
/-! DEFINITION. The instructions of spec/opcode_table.json, one constructor per row, with the operand bytes the
row's operation uses, as they stand in memory (R67: an operand byte is used as it stands). `a` is operandA, `b`
operandB (R16). Register operands stay bytes, because a byte above 7 is a legal encoding with a meaning (R204). -/

namespace Sys2Proof

/-- One constructor per row of the opcode table, in the table's order; operand kinds are those of R68. -/
inductive Instr where
  /-- HLT. -/
  | hlt
  /-- RET. -/
  | ret
  /-- PUSH: `a` = source register. -/
  | push (a : Byte)
  /-- POP: `a` = destination register. -/
  | pop (a : Byte)
  /-- PRN: `a` = source register. -/
  | prn (a : Byte)
  /-- CALL: `a` = register holding the target. -/
  | call (a : Byte)
  /-- JMP: `a` = register holding the target. -/
  | jmp (a : Byte)
  /-- JEQ: `a` = register holding the target. -/
  | jeq (a : Byte)
  /-- JNE: `a` = register holding the target. -/
  | jne (a : Byte)
  /-- NOT: `a` = source and destination register. -/
  | not (a : Byte)
  /-- LDI: `a` = destination register, `imm` = the immediate (operandB). -/
  | ldi (a imm : Byte)
  /-- ST: `addr` = the memory address itself (operandA), `b` = source register. -/
  | st (addr b : Byte)
  /-- ADD: `a` = source and destination register, `b` = source register. -/
  | add (a b : Byte)
  /-- MUL: operands as for ADD. -/
  | mul (a b : Byte)
  /-- MOD: `a` = dividend and destination register, `b` = divisor register. -/
  | mod (a b : Byte)
  /-- CMP: `a` and `b` = source registers. -/
  | cmp (a b : Byte)
  /-- AND: operands as for ADD. -/
  | and (a b : Byte)
  /-- OR: operands as for ADD. -/
  | or (a b : Byte)
  /-- XOR: operands as for ADD. -/
  | xor (a b : Byte)
  /-- SHL: `a` = value and destination register, `b` = register holding the count. -/
  | shl (a b : Byte)
  /-- SHR: operands as for SHL. -/
  | shr (a b : Byte)
deriving DecidableEq, Repr

end Sys2Proof
end

