-- ==== Sys2Proof/Decode.lean ====
section
/-! DEFINITION. The encoding (30_encoding.md): lengths, the opcode map and when it is well formed, the decoder,
total on any bytes, and after it the encoder, both for an arbitrary `OPCODE_MAP`. -/

namespace Sys2Proof

/-- R61: the length of an instruction in bytes, from bits 7:6 of its first byte alone; bit 7 is tested first. -/
def lenOf (ir : Byte) : Nat :=
  if ir.getLsbD 7 then 3 else if ir.getLsbD 6 then 2 else 1

/-- The byte an opcode map gives a mnemonic. -/
def OpcodeMap.byteOf (m : OpcodeMap) : Mnemonic → Byte
  | .hlt => m.hlt
  | .ret => m.ret
  | .push => m.push
  | .pop => m.pop
  | .prn => m.prn
  | .call => m.call
  | .jmp => m.jmp
  | .jeq => m.jeq
  | .jne => m.jne
  | .not => m.not
  | .ldi => m.ldi
  | .st => m.st
  | .add => m.add
  | .mul => m.mul
  | .mod => m.mod
  | .cmp => m.cmp
  | .and => m.and
  | .or => m.or
  | .xor => m.xor
  | .shl => m.shl
  | .shr => m.shr

/-- How many operand bytes the operation of a mnemonic uses (R63, R68). -/
def Mnemonic.operandBytes : Mnemonic → Nat
  | .hlt => 0
  | .ret => 0
  | .push => 1
  | .pop => 1
  | .prn => 1
  | .call => 1
  | .jmp => 1
  | .jeq => 1
  | .jne => 1
  | .not => 1
  | .ldi => 2
  | .st => 2
  | .add => 2
  | .mul => 2
  | .mod => 2
  | .cmp => 2
  | .and => 2
  | .or => 2
  | .xor => 2
  | .shl => 2
  | .shr => 2

/-- No byte of the list stands in it twice. -/
def distinctBytes : List Byte → Bool
  | [] => true
  | b :: bs => !bs.contains b && distinctBytes bs

/-- R63 clause 1: no two mnemonics have the same byte. (That each of the 21 has one byte is the type `OpcodeMap`.) -/
def OpcodeMap.injective (m : OpcodeMap) : Bool :=
  distinctBytes (Mnemonic.all.map m.byteOf)

/-- R63 clauses 2 to 4: each mnemonic's length has room for the operand bytes its operation uses. Two operand bytes
need length 3, one needs length 2 or more, none leaves the length free. -/
def OpcodeMap.lengthsFit (m : OpcodeMap) : Bool :=
  Mnemonic.all.all fun mn => mn.operandBytes + 1 ≤ lenOf (m.byteOf mn)

/-- R63: when an `OPCODE_MAP` is well formed. -/
def OpcodeMap.wf (m : OpcodeMap) : Bool := m.injective && m.lengthsFit

/-- `OPCODE_MAP^-1(ir)` of R66: the mnemonic whose byte is `ir`, all 8 bits compared (R62). UNVERIFIED, unsafe: the
full-byte match is the spec's decision D2 (log entry 6). -/
def OpcodeMap.find (m : OpcodeMap) (ir : Byte) : Option Mnemonic :=
  Mnemonic.all.find? fun mn => m.byteOf mn == ir

/-- What one instruction's bytes decode to. R181 asks that an unrecognized opcode be a constructor of its own, not a
wildcard's case; it has no row in the opcode table, so it stands here beside `Instr` (log entry 21). -/
inductive Decoded where
  /-- A mnemonic of the map, with its operand bytes. -/
  | instr (i : Instr)
  /-- A first byte that is in no mnemonic's place of the map (R180). -/
  | unrecognized (ir : Byte)
deriving DecidableEq, Repr

/-- Why bytes are not one instruction followed by the rest. Neither reason can arise from the machine's own fetch
under a map that meets R63. -/
inductive DecodeError where
  /-- The list ends before the length R61 gives. -/
  | truncated
  /-- The map gives the mnemonic a length without room for its operands (R63 forbids such a map). -/
  | operandMissing (mn : Mnemonic)
deriving DecidableEq, Repr

/-- The instruction of a mnemonic from its operand bytes `a`, `b` (R68). A byte beyond those the operation uses is
skipped (D19). -/
def Mnemonic.build : Mnemonic → List Byte → Option Instr
  | .hlt, _ => some .hlt
  | .ret, _ => some .ret
  | .push, a :: _ => some (.push a)
  | .pop, a :: _ => some (.pop a)
  | .prn, a :: _ => some (.prn a)
  | .call, a :: _ => some (.call a)
  | .jmp, a :: _ => some (.jmp a)
  | .jeq, a :: _ => some (.jeq a)
  | .jne, a :: _ => some (.jne a)
  | .not, a :: _ => some (.not a)
  | .ldi, a :: b :: _ => some (.ldi a b)
  | .st, a :: b :: _ => some (.st a b)
  | .add, a :: b :: _ => some (.add a b)
  | .mul, a :: b :: _ => some (.mul a b)
  | .mod, a :: b :: _ => some (.mod a b)
  | .cmp, a :: b :: _ => some (.cmp a b)
  | .and, a :: b :: _ => some (.and a b)
  | .or, a :: b :: _ => some (.or a b)
  | .xor, a :: b :: _ => some (.xor a b)
  | .shl, a :: b :: _ => some (.shl a b)
  | .shr, a :: b :: _ => some (.shr a b)
  | .push, [] | .pop, [] | .prn, [] | .call, [] | .jmp, [] | .jeq, [] | .jne, [] | .not, [] => none
  | .ldi, [] | .st, [] | .add, [] | .mul, [] | .mod, [] | .cmp, [] | .and, [] | .or, [] | .xor, []
  | .shl, [] | .shr, [] => none
  | .ldi, [_] | .st, [_] | .add, [_] | .mul, [_] | .mod, [_] | .cmp, [_] | .and, [_] | .or, [_] | .xor, [_]
  | .shl, [_] | .shr, [_] => none

/-- Decoding (R60 to R62, R66 steps 1 to 3): the first byte gives the length and the operation, the bytes after it
are the operands; the answer is what they mean and the bytes after them. Total on any list of bytes. -/
def decode (m : OpcodeMap) : List Byte → Except DecodeError (Decoded × List Byte)
  | [] => .error .truncated
  | ir :: rest =>
    if rest.length + 1 < lenOf ir then .error .truncated
    else match m.find ir with
      | none => .ok (.unrecognized ir, rest.drop (lenOf ir - 1))
      | some mn => match mn.build (rest.take (lenOf ir - 1)) with
        | none => .error (.operandMissing mn)
        | some i => .ok (.instr i, rest.drop (lenOf ir - 1))

/-- The mnemonic of an instruction. -/
def Instr.mnemonic : Instr → Mnemonic
  | .hlt => .hlt
  | .ret => .ret
  | .push _ => .push
  | .pop _ => .pop
  | .prn _ => .prn
  | .call _ => .call
  | .jmp _ => .jmp
  | .jeq _ => .jeq
  | .jne _ => .jne
  | .not _ => .not
  | .ldi _ _ => .ldi
  | .st _ _ => .st
  | .add _ _ => .add
  | .mul _ _ => .mul
  | .mod _ _ => .mod
  | .cmp _ _ => .cmp
  | .and _ _ => .and
  | .or _ _ => .or
  | .xor _ _ => .xor
  | .shl _ _ => .shl
  | .shr _ _ => .shr

/-- The operand bytes of an instruction, `a` then `b` (R60). -/
def Instr.operands : Instr → List Byte
  | .hlt => []
  | .ret => []
  | .push a => [a]
  | .pop a => [a]
  | .prn a => [a]
  | .call a => [a]
  | .jmp a => [a]
  | .jeq a => [a]
  | .jne a => [a]
  | .not a => [a]
  | .ldi a b => [a, b]
  | .st a b => [a, b]
  | .add a b => [a, b]
  | .mul a b => [a, b]
  | .mod a b => [a, b]
  | .cmp a b => [a, b]
  | .and a b => [a, b]
  | .or a b => [a, b]
  | .xor a b => [a, b]
  | .shl a b => [a, b]
  | .shr a b => [a, b]

/-- Those operand bytes of an instruction that name a register, `a` before `b` (R68, R206). LDI's immediate and ST's
address are not among them (R204). -/
def Instr.regOperands : Instr → List Byte
  | .hlt => []
  | .ret => []
  | .push a => [a]
  | .pop a => [a]
  | .prn a => [a]
  | .call a => [a]
  | .jmp a => [a]
  | .jeq a => [a]
  | .jne a => [a]
  | .not a => [a]
  | .ldi a _ => [a]
  | .st _ b => [b]
  | .add a b => [a, b]
  | .mul a b => [a, b]
  | .mod a b => [a, b]
  | .cmp a b => [a, b]
  | .and a b => [a, b]
  | .or a b => [a, b]
  | .xor a b => [a, b]
  | .shl a b => [a, b]
  | .shr a b => [a, b]

/-- The bytes of an instruction under a map: its opcode byte, its operand bytes and, where the map gives it a longer
length than its operands need, zeros in the bytes that are skipped (log entry 20). -/
def encode (m : OpcodeMap) (i : Instr) : List Byte :=
  let ir := m.byteOf i.mnemonic
  ir :: (i.operands ++ List.replicate (lenOf ir - 1 - i.operands.length) 0)

/-- The three bytes of a number written with bit 0 as the least significant bit of the first byte, the bits from
`nbits` up being 0: the layout of spec/opcode_table.json's rows in memory (R44: bytes at increasing addresses). -/
def tableBytes (nbits w : Nat) : List Byte :=
  let v := w % 2 ^ nbits
  [wrap8 v, wrap8 (v / 256), wrap8 (v / 65536)]

/-- The instruction the decoder reads, under the default map of R64, from the bits of an opcode-table row. -/
def decodeTableWord (nbits w : Nat) : Option Instr :=
  match decode OpcodeMap.default (tableBytes nbits w) with
  | .ok (.instr i, _) => some i
  | .ok (.unrecognized _, _) => none
  | .error _ => none

end Sys2Proof
end

