-- ==== Sys2Proof/Machine/State.lean ====
section
/-! DEFINITION. The state of CORE (R20), all of it and nothing else but the parameters the machine was built with, and
the state after reset (R35). -/

namespace Sys2Proof.Machine

/-- The fault record of R29. -/
inductive FaultRecord where
  /-- `RegIndexFault(i)`: `i` is the offending operand byte. -/
  | regIndexFault (i : Byte)
deriving DecidableEq, Repr

/-- The run state of R29. -/
inductive RunState where
  /-- The one active state. -/
  | running
  /-- Entered by HLT and by MOD with a zero divisor. Never left (R210). -/
  | halted
  /-- Entered by a register operand above 7 under `REG_INDEX_MODE = fault` (R205). Never left (R210). -/
  | faulted (f : FaultRecord)
deriving DecidableEq, Repr

/-- What the core emits on `out` (R6, R30). -/
inductive OutEvent where
  /-- `Prn(v)`, appended by PRN. -/
  | prn (v : Byte)
  /-- `DivZeroDiag`, appended by MOD with a zero divisor. -/
  | divZeroDiag
deriving DecidableEq, Repr

/-- The 256 bytes of memory (R33) as the list of those that are not 0, in rising order of address: an unlisted address
reads as 0, its reset value (R35). When a list has that form is `Memory.wf` (Machine/Ops.lean; log entry 19). -/
abbrev Memory := List Host.Cell

/-- The architectural state, R20's tuple, and the parameters (log entry 1). -/
structure State where
  /-- `mem`, R33. -/
  mem : Memory
  /-- `x[0]` to `x[7]`, R21; `x[7]` is the stack pointer by convention, R23. -/
  regs : Vector Byte 8
  /-- `pc`, R24: during an instruction, the address of its first byte. -/
  pc : Byte
  /-- Flag E (equal), R27. -/
  E : Bool
  /-- Flag G (greater), R27. -/
  G : Bool
  /-- Flag L (less), R27. -/
  L : Bool
  /-- `run`, R29. -/
  run : RunState
  /-- `out`, R30: the events emitted, oldest first. -/
  out : List OutEvent
  /-- The parameters P1 to P3 this machine was built with (R11). The model's own field: no step changes it. -/
  params : Params
deriving DecidableEq, Repr

/-- Why a step can stop. Both are raised by `step` (Machine/Cycle.lean's `cycle`) alone, never by an instruction's
meaning: R210, "Once `run` is not `running`, the core takes no further step". Both are safe: the hardware does not go
on either (log entry 4). -/
inductive Fault where
  /-- Raised by `step` when `run = halted`. Safe. -/
  | halted
  /-- Raised by `step` when `run = faulted(f)`. Safe. -/
  | faulted (f : FaultRecord)
deriving DecidableEq, Repr

/-- What the model refuses. None is raised by an instruction's meaning. -/
inductive Refusal where
  /-- The instruction has no meaning in the model yet. Raised by no arm of `exec`: every instruction has its meaning.
  Safe. -/
  | notModelled (mnemonic : String)
  /-- Raised by `step` and by `boot` for an `OPCODE_MAP` that breaks R63: "A model refuses a map that breaks one of
  them" (D19, log entry 5). Safe. -/
  | illFormedOpcodeMap
  /-- Raised by `boot` for an image of more than 256 bytes: R7, "An image longer than 256 bytes is refused" (D14, log
  entry 15). Safe. -/
  | imageTooLong
  /-- Raised by `step` where the decoder finds no place for an operand. Only a map that breaks R63 can cause it, and
  `step` refuses such a map before, so no state reaches it (log entry 5). Safe. -/
  | undecodable
deriving DecidableEq, Repr

/-- The state when the CPU is created (R35, R230 step 1), with the default parameters of R11. No image is loaded yet:
`boot` (Machine/Interface.lean) is that load (log entry 15). `pc = 0` rests on D18 (log entry 18). -/
def State.reset : State where
  mem := []
  regs := #v[0, 0, 0, 0, 0, 0, 0, 0xF4]
  pc := 0
  E := false
  G := false
  L := false
  run := .running
  out := []
  params := Params.default

end Sys2Proof.Machine
end

