-- ==== Sys2Proof/Machine/Ops.lean ====
section
/-! DEFINITION. The named operations over memory, registers, the program counter, the run state and the output, of
which every meaning is made, and entering the faulted state, the only "exception" CORE has (R205). There is no trap
entry (R209) and no return from a trap (R210): nothing is saved and nothing is restored. -/

namespace Sys2Proof.Machine

/-! ## Memory (R40 to R42) -/

/-- What an address that memory does not list reads as: the reset contents, 0 (R35). -/
def Memory.unlisted : Byte := 0

/-- The byte at an address. -/
def Memory.read : Memory → Nat → Byte
  | [], _ => Memory.unlisted
  | (k, v) :: rest, a => if k = a then v else Memory.read rest a

/-- Memory without any entry for an address. -/
def Memory.erase (m : Memory) (a : Nat) : Memory := m.filter fun c => c.1 != a

/-- Memory with an entry put before the first entry of a higher address. -/
def Memory.insert : Memory → Nat → Byte → Memory
  | [], a, v => [(a, v)]
  | (k, w) :: rest, a, v => if a < k then (a, v) :: (k, w) :: rest else (k, w) :: Memory.insert rest a v

/-- Memory after a byte is written. Writing what an unlisted address reads as removes the entry, so that equal
memories are equal lists. -/
def Memory.write (m : Memory) (a : Nat) (v : Byte) : Memory :=
  if v = Memory.unlisted then m.erase a else (m.erase a).insert a v

/-- The canonical form of the entries from address `lo` on. -/
def Memory.wfFrom : Nat → Memory → Bool
  | _, [] => true
  | lo, (k, v) :: rest => decide (lo ≤ k) && decide (k < 256) && (v != Memory.unlisted) && Memory.wfFrom (k + 1) rest

/-- The canonical form of memory: addresses strictly rising and below 256 (R40), no entry equal to what an unlisted
address reads as (log entry 19). -/
def Memory.wf (m : Memory) : Bool := Memory.wfFrom 0 m

/-- `MemRead(addr, 1)` (R41). An address is a byte, so it is already taken modulo 256. -/
def State.readMem (s : State) (addr : Byte) : Byte := Memory.read s.mem addr.toNat

/-- `MemWrite(addr, 1, v)` (R42). -/
def State.writeMem (s : State) (addr v : Byte) : State := { s with mem := Memory.write s.mem addr.toNat v }

/-! ## Registers (R21, R22) -/

/-- `x[r]`. -/
def State.reg (s : State) (r : RegIdx) : Byte := s.regs[r]

/-- `x[r] <- v`. -/
def State.setReg (s : State) (r : RegIdx) (v : Byte) : State := { s with regs := s.regs.set r v }

/-! ## The program counter (R24, R25) -/

/-- The length of a mnemonic's instruction under this machine's `OPCODE_MAP` (R61). -/
def State.len (s : State) (mn : Mnemonic) : Nat := lenOf (s.params.opcodes.byteOf mn)

/-- The address `n` bytes after `pc`, modulo 256 (R24). -/
def State.pcPlus (s : State) (n : Nat) : Byte := s.pc + wrap8 n

/-- The generic advance `pc <- wrap8(pc + len)` (R25 b). -/
def State.advance (s : State) (len : Nat) : State := { s with pc := s.pcPlus len }

/-- A redirect `pc <- target` (R25 a). -/
def State.redirect (s : State) (target : Byte) : State := { s with pc := target }

/-! ## Run state and output (R29, R30) -/

/-- `emit(ev)`: append an event to `out`. -/
def State.emit (s : State) (ev : OutEvent) : State := { s with out := s.out ++ [ev] }

/-- `halt()`: `run <- halted`. -/
def State.halt (s : State) : State := { s with run := .halted }

/-- Entering the faulted state (R205): `run` records the fault and nothing else changes, so `pc` still holds the
faulting instruction's address. UNVERIFIED, unsafe: the outcome is the spec's decision D3 (log entry 3). -/
def State.enterFaulted (s : State) (f : FaultRecord) : State := { s with run := .faulted f }

/-- `raise RegIndexFault(i)` (R14, R205). -/
def raiseRegIndexFault (i : Byte) (s : State) : Host.Outcome State Fault Refusal :=
  .next (s.enterFaulted (.regIndexFault i))

/-! ## The stack (R49) -/

/-- `x[7] <- wrap8(x[7] - 1)`. -/
def State.decSp (s : State) : State := s.setReg sp (s.reg sp - 1)

/-- `x[7] <- wrap8(x[7] + 1)`. -/
def State.incSp (s : State) : State := s.setReg sp (s.reg sp + 1)

end Sys2Proof.Machine
end

