-- ==== Sys2Proof/Machine/Flags.lean ====
section
/-! DEFINITION. The comparison flags. CMP is the only instruction that writes them (R27, R28), and this is its rule. -/

namespace Sys2Proof.Machine

/-- R113: exactly one flag becomes `true`, the other two are left as they were, none is ever cleared (C2, log entry
23). The comparison is unsigned: UNVERIFIED, unsafe, the spec's decision D4 (log entry 7). -/
def State.compare (s : State) (va vb : Byte) : State :=
  if va = vb then { s with E := true }
  else if vb < va then { s with G := true }
  else { s with L := true }

end Sys2Proof.Machine
end

