-- ==== Sys2Proof/Machine/Operands.lean ====
section
/-! DEFINITION. Operand forms (R67, R68): a register operand with its index check (R17, R204, R206). An immediate
(LDI's `b`) and a direct address (ST's `a`) are used as they stand and need no operation. -/

namespace Sys2Proof.Machine

/-- The index check of R204: the register an operand byte names, or nothing where it raises `RegIndexFault`. UNVERIFIED,
unsafe: both outcomes for a byte above 7 are the spec's decision D3 (log entry 3). -/
def regIndex (mode : RegIndexMode) (i : Byte) : Option RegIdx :=
  if h : i.toNat < 8 then some ⟨i.toNat, h⟩
  else match mode with
    | .fault => none
    | .mask3 => some ⟨i.toNat % 8, Nat.mod_lt _ (by decide)⟩

/-- A register operand: checked, and then its instruction's effect `k`, or the fault. The check comes before every
effect (R206). -/
def withReg (i : Byte) (s : State) (k : RegIdx → Host.Outcome State Fault Refusal) :
    Host.Outcome State Fault Refusal :=
  match regIndex s.params.regIndexMode i with
  | none => raiseRegIndexFault i s
  | some r => k r

/-- Two register operands, `a` checked before `b` (R206). -/
def withRegs (a b : Byte) (s : State) (k : RegIdx → RegIdx → Host.Outcome State Fault Refusal) :
    Host.Outcome State Fault Refusal :=
  withReg a s fun ra => withReg b s fun rb => k ra rb

end Sys2Proof.Machine
end

