-- ==== Sys2Proof/Machine/Alu.lean ====
section
/-! DEFINITION. The ALU instructions (41_alu.md). Operands and results are unsigned bytes, results wrap modulo 256
(R110), both sources are read before the destination is written (R121). -/

namespace Sys2Proof.Machine

/-- The common form of R111, R112, R115 and R117 to R120: `x[a] <- f(x[a], x[b])`, then the generic advance. -/
def aluBinary (mn : Mnemonic) (f : Byte → Byte → Byte) (a b : Byte) (s : State) :
    Host.Outcome State Fault Refusal :=
  withRegs a b s fun ra rb => .next ((s.setReg ra (f (s.reg ra) (s.reg rb))).advance (s.len mn))

/-- R115: the low 8 bits of the product. -/
def mulByte (va vb : Byte) : Byte := va * vb

/-- R116: bitwise complement within 8 bits. -/
def notByte (va : Byte) : Byte := ~~~va

/-- R118: shift left by the full value of the count, unmasked. UNVERIFIED, unsafe: counts of 8 or more are the spec's
decision D17 (log entry 17). -/
def shlByte (va vb : Byte) : Byte := va <<< vb.toNat

/-- R119: logical shift right by the full value of the count, unmasked (D17, log entry 17). -/
def shrByte (va vb : Byte) : Byte := va >>> vb.toNat

/-- R114, the remainder of a nonzero divisor. -/
def modByte (va vb : Byte) : Byte := va % vb

/-- R122, compatibility mode: the operation NOT, OR and XOR then all perform. -/
def compatBinary (mn : Mnemonic) (a b : Byte) (s : State) : Host.Outcome State Fault Refusal :=
  aluBinary mn (fun va vb => va &&& vb) a b s

/-- R111. -/
def execAdd (a b : Byte) (s : State) : Host.Outcome State Fault Refusal :=
  aluBinary .add (fun va vb => va + vb) a b s

/-- R112. -/
def execAnd (a b : Byte) (s : State) : Host.Outcome State Fault Refusal :=
  aluBinary .and (fun va vb => va &&& vb) a b s

/-- R113, compare: writes flags only. -/
def execCmp (a b : Byte) (s : State) : Host.Outcome State Fault Refusal :=
  withRegs a b s fun ra rb => .next ((s.compare (s.reg ra) (s.reg rb)).advance (s.len .cmp))

/-- R114, modulo. A zero divisor emits the diagnostic and halts, and nothing else is written (R202); the generic
advance is made on that path too (D7, log entry 10). Both index checks come before the zero test (R206). -/
def execMod (a b : Byte) (s : State) : Host.Outcome State Fault Refusal :=
  withRegs a b s fun ra rb =>
    if s.reg rb = 0 then .next ((s.emit .divZeroDiag).halt.advance (s.len .mod))
    else .next ((s.setReg ra (modByte (s.reg ra) (s.reg rb))).advance (s.len .mod))

/-- R115. -/
def execMul (a b : Byte) (s : State) : Host.Outcome State Fault Refusal :=
  aluBinary .mul mulByte a b s

/-- R116, and R122 in compatibility mode, where the second register is named by the byte at `pc + 2`: operandB where
NOT's length is 3, `MemRead(pc + 2, 1)` where it is 2, the same byte of memory either way, because `pc` holds the
instruction's address while it executes (R24). UNVERIFIED, unsafe: that byte is the spec's decision D10 (log entry 13). -/
def execNot (a : Byte) (s : State) : Host.Outcome State Fault Refusal :=
  if s.params.notOrXorAsAnd then compatBinary .not a (s.readMem (s.pcPlus 2)) s
  else withReg a s fun ra => .next ((s.setReg ra (notByte (s.reg ra))).advance (s.len .not))

/-- R117, and R122 in compatibility mode. -/
def execOr (a b : Byte) (s : State) : Host.Outcome State Fault Refusal :=
  if s.params.notOrXorAsAnd then compatBinary .or a b s
  else aluBinary .or (fun va vb => va ||| vb) a b s

/-- R118. -/
def execShl (a b : Byte) (s : State) : Host.Outcome State Fault Refusal :=
  aluBinary .shl shlByte a b s

/-- R119. -/
def execShr (a b : Byte) (s : State) : Host.Outcome State Fault Refusal :=
  aluBinary .shr shrByte a b s

/-- R120, and R122 in compatibility mode. -/
def execXor (a b : Byte) (s : State) : Host.Outcome State Fault Refusal :=
  if s.params.notOrXorAsAnd then compatBinary .xor a b s
  else aluBinary .xor (fun va vb => va ^^^ vb) a b s

end Sys2Proof.Machine
end

