-- ==== Sys2Proof/Machine/Jumps.lean ====
section
/-! DEFINITION. JMP, JEQ and JNE (43_jumps.md). The index check is made whether or not a branch is taken (R206; the
spec's decision D3, log entry 3). -/

namespace Sys2Proof.Machine

/-- The common form of R160 to R162: a redirect to `x[a]` where the condition holds, else the generic advance. -/
def jumpIf (mn : Mnemonic) (taken : Bool) (a : Byte) (s : State) : Host.Outcome State Fault Refusal :=
  withReg a s fun ra => .next (if taken then s.redirect (s.reg ra) else s.advance (s.len mn))

/-- R160. -/
def execJmp (a : Byte) (s : State) : Host.Outcome State Fault Refusal := jumpIf .jmp true a s

/-- R161: reads `E` alone. -/
def execJeq (a : Byte) (s : State) : Host.Outcome State Fault Refusal := jumpIf .jeq s.E a s

/-- R162: reads `E` alone. -/
def execJne (a : Byte) (s : State) : Host.Outcome State Fault Refusal := jumpIf .jne (!s.E) a s

end Sys2Proof.Machine
end

