-- ==== Sys2Proof/Machine/LdiPrnHlt.lean ====
section
/-! DEFINITION. LDI, PRN and HLT (40_ldi_prn_hlt.md). -/

namespace Sys2Proof.Machine

/-- R100, load immediate. The immediate is never checked. -/
def execLdi (a imm : Byte) (s : State) : Host.Outcome State Fault Refusal :=
  withReg a s fun ra => .next ((s.setReg ra imm).advance (s.len .ldi))

/-- R101, print register. -/
def execPrn (a : Byte) (s : State) : Host.Outcome State Fault Refusal :=
  withReg a s fun ra => .next ((s.emit (.prn (s.reg ra))).advance (s.len .prn))

/-- R102, halt; the generic advance is made as well. UNVERIFIED, unsafe: that advance is the spec's decision D7 (log
entry 10). -/
def execHlt (s : State) : Host.Outcome State Fault Refusal :=
  .next (s.halt.advance (s.len .hlt))

end Sys2Proof.Machine
end

