-- ==== Sys2Proof/Machine/Stack.lean ====
section
/-! DEFINITION. PUSH, POP, CALL and RET (42_stack.md). The sub-steps take effect in the order the rules list them, each
reading what the ones before it wrote. UNVERIFIED, unsafe: where the operand is R7 that order decides the result, and
it is the spec's decision D6 (log entry 9). -/

namespace Sys2Proof.Machine

/-- R140: decrement, then read the source, then write. -/
def execPush (a : Byte) (s : State) : Host.Outcome State Fault Refusal :=
  withReg a s fun ra =>
    let s₁ := s.decSp
    .next ((s₁.writeMem (s₁.reg sp) (s₁.reg ra)).advance (s.len .push))

/-- R141: read, write the destination, clear the slot, increment. -/
def execPop (a : Byte) (s : State) : Host.Outcome State Fault Refusal :=
  withReg a s fun ra =>
    let slot := s.reg sp
    .next ((((s.setReg ra (s.readMem slot)).writeMem slot 0).incSp).advance (s.len .pop))

/-- R142: write the return address `pc + len` (C1, log entry 22) below the stack pointer, decrement, then read the
target. -/
def execCall (a : Byte) (s : State) : Host.Outcome State Fault Refusal :=
  withReg a s fun ra =>
    let s₁ := (s.writeMem (s.reg sp - 1) (s.pcPlus (s.len .call))).decSp
    .next (s₁.redirect (s₁.reg ra))

/-- R143: the slot is not cleared. -/
def execRet (s : State) : Host.Outcome State Fault Refusal :=
  .next ((s.redirect (s.readMem (s.reg sp))).incSp)

end Sys2Proof.Machine
end

