-- ==== Sys2Proof/Machine/Store.lean ====
section
/-! DEFINITION. ST (44_store.md). -/

namespace Sys2Proof.Machine

/-- R170: the address is the operand byte itself, not the content of a register, and is never checked. -/
def execSt (addr b : Byte) (s : State) : Host.Outcome State Fault Refusal :=
  withReg b s fun rb => .next ((s.writeMem addr (s.reg rb)).advance (s.len .st))

end Sys2Proof.Machine
end

