-- ==== Sys2Proof/Machine/Fetch.lean ====
section
/-! DEFINITION. Fetching an instruction's bytes (R66 steps 1 and 2). -/

namespace Sys2Proof.Machine

/-- The bytes of the instruction at `pc`, as many as its first byte's length asks for, at consecutive addresses modulo
256, read before the operation executes. UNVERIFIED, unsafe: when and where they are read is the spec's decision D5
(log entry 8). -/
def State.fetch (s : State) : List Byte :=
  (List.range (lenOf (s.readMem s.pc))).map fun k => s.readMem (s.pcPlus k)

/-- Bytes placed in memory from an address on, modulo 256. -/
def State.placeBytes (s : State) : Byte → List Byte → State
  | _, [] => s
  | addr, b :: bs => (s.writeMem addr b).placeBytes (addr + 1) bs

end Sys2Proof.Machine
end

