-- ==== Sys2Proof/Machine/Unrecognized.lean ====
section
/-! DEFINITION. Unrecognized opcodes (45_unrecognized.md). -/

namespace Sys2Proof.Machine

/-- R180: a silent no-op with the generic advance, by the length of the byte `ir` itself; never a fault (R203). -/
def execUnrecognized (ir : Byte) (s : State) : Host.Outcome State Fault Refusal :=
  .next (s.advance (lenOf ir))

end Sys2Proof.Machine
end

