-- ==== Sys2Proof/Machine/Cycle.lean ====
section
/-! DEFINITION. The instruction cycle (R66): one instruction per step. -/

namespace Sys2Proof.Machine

/-- Dispatch on what the fetched bytes decode to. The register checks, the execution and the advance of R66 are in each
meaning. -/
def runDecoded (d : Except DecodeError (Decoded × List Byte)) (s : State) : Host.Outcome State Fault Refusal :=
  match d with
  | .ok (.instr i, _) => exec i s
  | .ok (.unrecognized ir, _) => execUnrecognized ir s
  | .error _ => .refused .undecodable

/-- `step()` of R66. It requires `run = running` (R210), and the model refuses a machine whose `OPCODE_MAP` breaks R63. -/
def cycle (s : State) : Host.Outcome State Fault Refusal :=
  match s.run with
  | .halted => .fault .halted
  | .faulted f => .fault (.faulted f)
  | .running =>
    if s.params.opcodes.wf then runDecoded (decode s.params.opcodes s.fetch) s
    else .refused .illFormedOpcodeMap

end Sys2Proof.Machine
end

