-- ==== Sys2Proof/Machine/Step.lean ====
section
/-! DEFINITION. The step of the machine, and how an instruction comes to be the next one fetched. -/

namespace Sys2Proof.Machine

/-- One step: one instruction (R66, R235). -/
def step (s : State) : Host.Outcome State Fault Refusal := cycle s

/-- `s` with the instruction whose bits are `w`, numbered as spec/opcode_table.json numbers them, in memory at `pc`
(three bytes, the longest instruction's length; those above `nbits` 0). Only memory changes: CORE fetches at `pc`. It
stands for the host's load of an image (R7, log entry 15). -/
def State.withFetchWord (s : State) (nbits w : Nat) : State := s.placeBytes s.pc (tableBytes nbits w)

end Sys2Proof.Machine
end

