-- ==== Sys2Proof/Machine/Interface.lean ====
section
/-! DEFINITION. The block's interfaces at transaction level (R6, D16): `image`, `out`, `status` and `readout`. -/

namespace Sys2Proof.Machine

/-- Reset and load (R7, R230 steps 1 and 2): a core built with parameters `p` from an image. Its bytes stand from
address 0 on, every address after it holds 0, all else is as after reset. A map that breaks R63 and an image of more
than 256 bytes are refused (D19, D14; log entries 5 and 15). -/
def boot (p : Params) (image : List Byte) : Host.Outcome State Fault Refusal :=
  if p.opcodes.wf = false then .refused .illFormedOpcodeMap
  else if 256 < image.length then .refused .imageTooLong
  else .next ({ State.reset with params := p }.placeBytes 0 image)

/-- The `status` interface (R6). -/
inductive Status where
  | running
  | halted
  | faulted
deriving DecidableEq, Repr

/-- What `status` shows of a state. -/
def State.status (s : State) : Status :=
  match s.run with
  | .running => .running
  | .halted => .halted
  | .faulted _ => .faulted

/-- The `readout` interface (R6): what the host may read at any time (R9). -/
structure Readout where
  x : Vector Byte 8
  pc : Byte
  E : Bool
  G : Bool
  L : Bool
  /-- The bytes at addresses 0 to 255, in that order. -/
  mem : List Byte
deriving DecidableEq, Repr

/-- Reading the core. It is a function of the state, which it does not change (R9). -/
def State.readout (s : State) : Readout where
  x := s.regs
  pc := s.pc
  E := s.E
  G := s.G
  L := s.L
  mem := (List.range 256).map (Memory.read s.mem)

/-- The host's text of one event (R8): `Prn(v)` is the decimal numeral of `v` and a newline, `DivZeroDiag` the line P4.
UNVERIFIED, safe: no sign and no padding is the spec's decision D9, the line's text is open (D8; log entries 11, 12). -/
def OutEvent.text : OutEvent → List Char
  | .prn v => Nat.toDigits 10 v.toNat ++ ['\n']
  | .divZeroDiag => Config.divZeroMsg

/-- The host's standard output so far (R8, R30). -/
def State.outText (s : State) : List Char := s.out.flatMap OutEvent.text

end Sys2Proof.Machine
end

