-- ==== Sys2Proof/Safety.lean ====
section
/-! DEFINITION. The words the statements are made of: when a register operand names a register and when it faults
(R204), what an instruction may write, what stays the same, and the invariant of the machine. They are written from the
rules, in numbers where the rules give numbers, apart from the operations the meanings call. -/

namespace Sys2Proof.Machine

/-- The operand byte `i` names register `r`: it is 0 to 7, or the machine is built with `mask3`, which takes it modulo
8 (R204). -/
def RegNames (s : State) (i : Byte) (r : RegIdx) : Prop :=
  (i.toNat ≤ 7 ∨ s.params.regIndexMode = .mask3) ∧ r.val = i.toNat % 8

/-- The operand byte `i` raises `RegIndexFault`: it is above 7 and the machine is built with `fault` (R204). -/
def RegFaults (s : State) (i : Byte) : Prop :=
  7 < i.toNat ∧ s.params.regIndexMode = .fault

/-- The outcome of R205: `run` records the offending byte `k`, all else is as it was. -/
def RaisesRegIndexFault (i : Instr) (s : State) (k : Byte) : Prop :=
  exec i s = .next { s with run := .faulted (.regIndexFault k) }

/-- The exceptions of an instruction with one register operand. -/
def FaultsOnBadRegister (i : Instr) (s : State) (a : Byte) : Prop :=
  RegFaults s a → RaisesRegIndexFault i s a

/-- The exceptions of an instruction with two register operands: the first that fails is the one reported (R206). -/
def FaultsOnBadRegisters (i : Instr) (s : State) (a b : Byte) : Prop :=
  (RegFaults s a → RaisesRegIndexFault i s a) ∧
  (¬ RegFaults s a → RegFaults s b → RaisesRegIndexFault i s b)

/-- `pc` after the generic advance of an instruction (R25 b): `wrap8(pc + len)`. -/
def advancedPc (s : State) (mn : Mnemonic) : Byte :=
  wrap8 (s.pc.toNat + lenOf (s.params.opcodes.byteOf mn))

/-- The instruction completes, its whole effect being that register `r` receives `v` and `pc` receives `pc'`. -/
def CompletesWriting (i : Instr) (s : State) (r : RegIdx) (v pc' : Byte) : Prop :=
  exec i s = .next { s with regs := s.regs.set r v, pc := pc' }

/-- The three flags are the same. -/
def SameFlags (s t : State) : Prop := t.E = s.E ∧ t.G = s.G ∧ t.L = s.L

/-- All but memory, registers and `pc` is the same: the flags, the run state, the output and the parameters. -/
def SameBesides (s t : State) : Prop :=
  SameFlags s t ∧ t.run = s.run ∧ t.out = s.out ∧ t.params = s.params

/-- Every byte of memory reads the same. -/
def SameMemory (s t : State) : Prop := ∀ addr, t.readMem addr = s.readMem addr

/-- The byte `v` stands at `slot`, and every other byte of memory reads the same. -/
def StoresByte (s t : State) (slot v : Byte) : Prop :=
  t.readMem slot = v ∧ ∀ addr, addr ≠ slot → t.readMem addr = s.readMem addr

/-- The address one below the stack pointer, where PUSH and CALL write (R43). -/
def belowSp (s : State) : Byte := wrap8 (s.regs[sp].toNat + 255)

/-- The address one above the stack pointer, which POP and RET leave in it. -/
def aboveSp (s : State) : Byte := wrap8 (s.regs[sp].toNat + 1)

/-- The address of the one byte an instruction stores (R43), if it stores one. -/
def storedAt (i : Instr) (s : State) : Option Byte :=
  match i with
  | .push _ => some (belowSp s)
  | .pop _ => some s.regs[sp]
  | .call _ => some (belowSp s)
  | .st addr _ => some addr
  | .hlt | .ret | .prn _ | .jmp _ | .jeq _ | .jne _ | .not _ | .ldi _ _ => none
  | .add _ _ | .mul _ _ | .mod _ _ | .cmp _ _ | .and _ _ | .or _ _ | .xor _ _ | .shl _ _ | .shr _ _ => none

/-- The registers an instruction may write: its destination operand, and the stack pointer for PUSH, POP, CALL and RET
(R23). -/
def MayWriteReg (i : Instr) (s : State) (r : RegIdx) : Prop :=
  match i with
  | .ldi a _ | .not a => RegNames s a r
  | .add a _ | .mul a _ | .mod a _ | .and a _ | .or a _ | .xor a _ | .shl a _ | .shr a _ => RegNames s a r
  | .pop a => RegNames s a r ∨ r = sp
  | .push _ | .call _ | .ret => r = sp
  | .hlt | .prn _ | .jmp _ | .jeq _ | .jne _ | .st _ _ | .cmp _ _ => False

/-- The instruction emits an event (R30): PRN of a register, and MOD of two registers the second of which holds 0. With a
register operand above 7 under `fault` it does not (R205, the spec's decision D3, log entry 3). -/
def Emits (i : Instr) (s : State) : Prop :=
  match i with
  | .prn a => ∃ r, RegNames s a r
  | .mod a b => ∃ ra rb, RegNames s a ra ∧ RegNames s b rb ∧ s.regs[rb] = 0
  | .hlt | .ret | .push _ | .pop _ | .call _ | .jmp _ | .jeq _ | .jne _ | .not _ | .ldi _ _ | .st _ _ => False
  | .add _ _ | .mul _ _ | .cmp _ _ | .and _ _ | .or _ _ | .xor _ _ | .shl _ _ | .shr _ _ => False

/-- The register operand bytes an instruction checks, in order (R206): those of its encoding, and in compatibility mode
for NOT the byte at `pc + 2` as well (R122, R201). -/
def checkedOperands (i : Instr) (s : State) : List Byte :=
  i.regOperands ++
    if i.mnemonic = .not ∧ s.params.notOrXorAsAnd = true then [s.readMem (wrap8 (s.pc.toNat + 2))] else []

/-- The instructions that redirect `pc` (R25 a), JEQ and JNE when taken. -/
def redirects (i : Instr) (s : State) : Prop :=
  i.mnemonic = .jmp ∨ i.mnemonic = .call ∨ i.mnemonic = .ret ∨
  (i.mnemonic = .jeq ∧ s.E = true) ∨ (i.mnemonic = .jne ∧ s.E = false)

/-- The invariant of the machine: memory holds 256 bytes in its one canonical form, and the map meets R63. -/
def Inv (s : State) : Prop := s.mem.wf = true ∧ s.params.opcodes.wf = true

end Sys2Proof.Machine
end

