-- ==== Sys2Proof/WellFormed.lean ====
section
/-! DEFINITION. What makes an instruction well formed as syntax: every operand byte that names a register names one
that exists, under the parameter P3 (R204). An instruction that is not well formed still has a meaning: it enters the
faulted state (R205). When an `OPCODE_MAP` is well formed (R63) is `OpcodeMap.wf` in Sys2Proof/Decode.lean, where a
repair can reach it. -/

namespace Sys2Proof

/-- Whether a register operand byte names a register: 0 to 7 do, and under `mask3` every byte does (R204). -/
def regOperandOk (mode : RegIndexMode) (i : Byte) : Bool :=
  i.toNat ≤ 7 || mode == .mask3

/-- Every register operand of the instruction names a register. -/
def Instr.wellFormed (mode : RegIndexMode) (i : Instr) : Bool :=
  i.regOperands.all (regOperandOk mode)

end Sys2Proof
end

