-- ==== Sys2Proof/Certificates/Slice0/Obligations.lean ====
section
/-! DEFINITION. The statements for the provers, from the numbered rules of spec/. Results are given in numbers, as the
rules give them, with `wrap8` for the reduction modulo 256; `RegNames s i r` says that operand byte `i` names register
`r` (R204), under either value of parameter P3. A witness for every statement with hypotheses is in
Sys2Proof/Tests/Slice0.lean. -/

open Sys2Proof Sys2Proof.Machine

/-! ## Reset, image and the machine as a whole -/

/-- R35, every row of its table. That `pc` is 0 is the spec's decision D18 (log entry 18), and that the parameters stand
in the state at R11's defaults is the model's choice (log entry 1). -/
def Obligations.ResetLeavesTheStatedValues : Prop :=
  (∀ addr, State.reset.readMem addr = 0) ∧
  (∀ r : RegIdx, r.val < 7 → State.reset.regs[r] = 0) ∧ State.reset.regs[sp] = 0xF4 ∧
  State.reset.pc = 0 ∧
  State.reset.E = false ∧ State.reset.G = false ∧ State.reset.L = false ∧
  State.reset.run = .running ∧ State.reset.out = [] ∧ State.reset.params = Params.default

/-- The invariant holds at reset: memory is in its canonical form and the default map meets R63. -/
def Obligations.ResetMeetsTheInvariant : Prop := Inv State.reset

/-- The invariant is kept by every step, whatever the state: memory stays 256 bytes in the one canonical form (R33,
R40), and the machine's opcode map stays one that meets R63. The canonical form is the model's (log entry 19). -/
def Obligations.EveryStepKeepsTheInvariant : Prop :=
  ∀ s t : State, Inv s → step s = .next t → Inv t

/-- R7 and R230 steps 1 and 2: the image's bytes stand from address 0 on, every later address holds 0, all else is as
after reset, and the invariant holds, so a run may begin. The limit of 256 bytes is the spec's decision D14 (log entry
15). -/
def Obligations.BootPlacesTheImage : Prop :=
  ∀ (p : Params) (image : List Byte), p.opcodes.wf = true → image.length ≤ 256 →
    ∃ t, boot p image = .next t ∧
      (∀ k, ∀ h : k < image.length, t.readMem (wrap8 k) = image[k]) ∧
      (∀ k, image.length ≤ k → k < 256 → t.readMem (wrap8 k) = 0) ∧
      t = { State.reset with params := p, mem := t.mem } ∧ Inv t

/-- R63 ("A model refuses a map that breaks one of them", D19) and R7 (an image of more than 256 bytes is refused, D14):
what is refused, and at which of `boot` and `step`. -/
def Obligations.BadMapsAndLongImagesAreRefused : Prop :=
  (∀ (p : Params) (image : List Byte), p.opcodes.wf = false → boot p image = .refused .illFormedOpcodeMap) ∧
  (∀ (p : Params) (image : List Byte), p.opcodes.wf = true → 256 < image.length →
    boot p image = .refused .imageTooLong) ∧
  (∀ s : State, s.run = .running → s.params.opcodes.wf = false → step s = .refused .illFormedOpcodeMap)

/-- R69 as a rule of the whole machine: no byte is illegal and nothing traps, so a running core whose map meets R63
always completes its step. -/
def Obligations.RunningCoreAlwaysSteps : Prop :=
  ∀ s : State, s.run = .running → s.params.opcodes.wf = true → ∃ t, step s = .next t

/-- R210: `halted` and `faulted` are terminal. -/
def Obligations.StoppedCoreTakesNoStep : Prop :=
  ∀ s : State, s.run ≠ .running → ∀ t, step s ≠ .next t

/-- What a stopped core's step answers: a fault that names the terminal state. That it is a fault is the model's choice
(log entry 4); the two states are R29's. -/
def Obligations.StoppedCoreNamesItsState : Prop :=
  ∀ s : State, (s.run = .halted → step s = .fault .halted) ∧
    (∀ f, s.run = .faulted f → step s = .fault (.faulted f))

/-- R66: a step of a running core runs the instruction that the bytes at `pc` decode to; nothing is added around it, the
advance being part of each meaning. That all bytes are fetched first, and where, is the spec's decision D5 (log entry
8). -/
def Obligations.StepRunsTheDecodedInstruction : Prop :=
  ∀ (s : State) (i : Instr) (rest : List Byte), s.run = .running → s.params.opcodes.wf = true →
    decode s.params.opcodes s.fetch = .ok (.instr i, rest) → step s = exec i s

/-- R61 with R60's addresses: the first byte's top bits alone say how many bytes the instruction has, and they stand at
`pc`, `pc + 1` and `pc + 2` modulo 256, which R66 marks as the spec's decision D5 (log entry 8). -/
def Obligations.FetchReadsAsManyBytesAsTheTopBitsSay : Prop :=
  ∀ s : State,
    (128 ≤ (s.readMem s.pc).toNat → s.fetch =
      [s.readMem s.pc, s.readMem (wrap8 (s.pc.toNat + 1)), s.readMem (wrap8 (s.pc.toNat + 2))]) ∧
    (64 ≤ (s.readMem s.pc).toNat → (s.readMem s.pc).toNat < 128 → s.fetch =
      [s.readMem s.pc, s.readMem (wrap8 (s.pc.toNat + 1))]) ∧
    ((s.readMem s.pc).toNat < 64 → s.fetch = [s.readMem s.pc])

/-- R180: a byte the map does not hold is a no-op with the generic advance by its own length; R203: under any map. -/
def Obligations.UnrecognizedByteIsANoOp : Prop :=
  ∀ s : State, s.run = .running → s.params.opcodes.wf = true →
    (∀ mn, s.params.opcodes.byteOf mn ≠ s.readMem s.pc) →
    step s = .next { s with pc := wrap8 (s.pc.toNat + lenOf (s.readMem s.pc)) }

/-- R6 and R9: `readout` shows the register file, `pc`, the flags and each of the 256 bytes of memory, and `status` the
run state. That they are transaction-level interfaces is the spec's decision D16 (log entry 25). -/
def Obligations.ReadoutAndStatusShowTheState : Prop :=
  ∀ s : State,
    s.readout.x = s.regs ∧ s.readout.pc = s.pc ∧
    s.readout.E = s.E ∧ s.readout.G = s.G ∧ s.readout.L = s.L ∧ s.readout.mem.length = 256 ∧
    (∀ addr : Byte, s.readout.mem[addr.toNat]? = some (s.readMem addr)) ∧
    (s.status = .running ↔ s.run = .running) ∧ (s.status = .halted ↔ s.run = .halted) ∧
    (s.status = .faulted ↔ ∃ f, s.run = .faulted f)

/-! ## Encoding -/

/-- Under every map that meets R63, decoding an instruction's bytes gives the instruction back, with every operand at
every value, and the bytes after it. The match on all 8 bits and the conditions on the map are the spec's decisions D2
and D19 (log entries 6 and 20). -/
def Obligations.DecodingAnEncodedInstructionGivesItBack : Prop :=
  ∀ (m : OpcodeMap) (i : Instr) (rest : List Byte), m.wf = true →
    decode m (encode m i ++ rest) = .ok (.instr i, rest)

/-- Under the default map the other direction holds too: bytes that decode to an instruction are its encoding, so each
instruction has one encoding and no byte of it is ignored. The map is the spec's decision D1 (log entry 2). -/
def Obligations.DefaultDecodingIsExact : Prop :=
  ∀ (bs rest : List Byte) (i : Instr), decode OpcodeMap.default bs = .ok (.instr i, rest) →
    bs = encode OpcodeMap.default i ++ rest

/-- Every mnemonic's length under R64's default map is the table's, and some words of each family decode to the
instruction R64 gives for them. The byte values are the spec's default from general knowledge (D1, log entry 2). -/
def Obligations.DefaultTableWordsDecode : Prop :=
  OpcodeMap.default.wf = true ∧
  (∀ mn, lenOf (OpcodeMap.default.byteOf mn) = mn.operandBytes + 1) ∧
  decode .default [0x01] = .ok (.instr .hlt, []) ∧
  decode .default [0x11] = .ok (.instr .ret, []) ∧
  decode .default [0x45, 0x06] = .ok (.instr (.push 6), []) ∧
  decode .default [0x55, 0x07] = .ok (.instr (.jeq 7), []) ∧
  decode .default [0x82, 0x03, 0xFF] = .ok (.instr (.ldi 3 0xFF), []) ∧
  decode .default [0x84, 0x0D, 0x01] = .ok (.instr (.st 0x0D 1), []) ∧
  decode .default [0xA4, 0x02, 0x05] = .ok (.instr (.mod 2 5), []) ∧
  decode .default [0xA1, 0x02, 0x05] = .ok (.unrecognized 0xA1, [])

/-! ## Rules of the whole instruction set: frames -/

/-- R28: no instruction other than CMP writes a flag, also not where it overflows, halts or faults. -/
def Obligations.OnlyCmpWritesFlags : Prop :=
  ∀ (i : Instr) (s t : State), i.mnemonic ≠ .cmp → exec i s = .next t → SameFlags s t

/-- R113 with C2: over any step, a flag that is `true` stays `true`. -/
def Obligations.ComparisonFlagsAreSticky : Prop :=
  ∀ s t : State, step s = .next t →
    (s.E = true → t.E = true) ∧ (s.G = true → t.G = true) ∧ (s.L = true → t.L = true)

/-- R27: only CMP writes the flags, no instruction reads `G` or `L`, and only JEQ and JNE read `E`: whatever the flags
not read are changed to, an instruction does the same to all else. -/
def Obligations.OnlyJeqAndJneReadAFlagAndOnlyE : Prop :=
  ∀ (i : Instr) (s t : State), exec i s = .next t →
    (i.mnemonic ≠ .cmp → SameFlags s t) ∧
    (∀ g l, ∃ g' l', exec i { s with G := g, L := l } = .next { t with G := g', L := l' }) ∧
    (i.mnemonic ≠ .jeq → i.mnemonic ≠ .jne → ∀ e, ∃ e', exec i { s with E := e } = .next { t with E := e' })

/-- R43: memory changes only at the one byte an instruction stores to, by the addresses of R43's table; every other
byte, and all of memory for an instruction that stores nothing, reads as before. -/
def Obligations.MemoryChangesOnlyWhereStored : Prop :=
  ∀ (i : Instr) (s t : State), exec i s = .next t →
    ∀ addr, storedAt i s ≠ some addr → t.readMem addr = s.readMem addr

/-- R23 and the operand lists of R68: a register changes only if it is the destination operand, or the stack pointer of
PUSH, POP, CALL and RET. -/
def Obligations.RegistersChangeOnlyWhereWritten : Prop :=
  ∀ (i : Instr) (s t : State) (r : RegIdx), exec i s = .next t → ¬ MayWriteReg i s r → t.regs[r] = s.regs[r]

/-- R30: PRN appends `Prn(v)`, MOD with a zero divisor appends `DivZeroDiag`, nothing else emits, and nothing removes an
event. That PRN and MOD emit nothing where a register operand is above 7 under `fault` is the spec's decision D3 (R205;
log entry 3). -/
def Obligations.OutputOnlyGrowsByPrnAndModByZero : Prop :=
  ∀ (i : Instr) (s t : State), exec i s = .next t →
    (∀ a r, i = .prn a → RegNames s a r → t.out = s.out ++ [.prn s.regs[r]]) ∧
    (∀ a b ra rb, i = .mod a b → RegNames s a ra → RegNames s b rb → s.regs[rb] = 0 →
      t.out = s.out ++ [.divZeroDiag]) ∧
    (¬ Emits i s → t.out = s.out) ∧
    (∃ evs, t.out = s.out ++ evs)

/-- R213: the core cannot read its output back: whatever has been emitted before, an instruction does the same and
appends the same. -/
def Obligations.OutputIsNeverReadBack : Prop :=
  ∀ (i : Instr) (s t : State) (o : List OutEvent), exec i s = .next t →
    ∃ evs, t.out = s.out ++ evs ∧ exec i { s with out := o } = .next { t with out := o ++ evs }

/-- The parameters of R11 never change: no step writes them. That they stand in the state is the model's choice (log
entry 1). -/
def Obligations.ParametersNeverChange : Prop :=
  ∀ s t : State, step s = .next t → t.params = s.params

/-- R25 (b): an instruction that does not redirect `pc` and does not fault takes the generic advance. That HLT and the
zero-divisor halt take it as well is the spec's decision D7 (log entry 10). -/
def Obligations.PcAdvancesByTheLength : Prop :=
  ∀ (i : Instr) (s t : State), exec i s = .next t → ¬ redirects i s →
    (∀ k ∈ checkedOperands i s, ¬ RegFaults s k) → t.pc = advancedPc s i.mnemonic

/-- R204 to R206: the first register operand above 7, under `REG_INDEX_MODE = fault`, puts the core in the faulted state
and nothing else changes, whether or not a branch would be taken or MOD's divisor is zero. The spec's decision D3 (log
entry 3). -/
def Obligations.FirstBadRegisterOperandFaults : Prop :=
  ∀ (i : Instr) (s : State) (before after : List Byte) (k : Byte),
    checkedOperands i s = before ++ k :: after → (∀ j ∈ before, ¬ RegFaults s j) → RegFaults s k →
    RaisesRegIndexFault i s k

/-- R201: nothing but a bad register operand of the instruction leads from `running` to `faulted`, which is the spec's
decision D3 (log entry 3). -/
def Obligations.OnlyABadRegisterOperandFaults : Prop :=
  ∀ (i : Instr) (s t : State) (f : FaultRecord), s.run = .running → exec i s = .next t → t.run = .faulted f →
    ∃ k ∈ checkedOperands i s, RegFaults s k ∧ f = .regIndexFault k

/-- R29: only HLT and MOD with a zero divisor lead from `running` to `halted`. -/
def Obligations.OnlyHltAndModByZeroHalt : Prop :=
  ∀ (i : Instr) (s t : State), s.run = .running → exec i s = .next t → t.run = .halted →
    i = .hlt ∨ ∃ a b rb, i = .mod a b ∧ RegNames s b rb ∧ s.regs[rb] = 0

/-- Every register operand of a well-formed instruction names a register, so in default compatibility (P2 false) it
never enters the faulted state. Which operands fault is the spec's decision D3 (log entry 3). -/
def Obligations.WellFormedInstructionsNeverFault : Prop :=
  ∀ (i : Instr) (s : State), i.wellFormed s.params.regIndexMode = true → s.params.notOrXorAsAnd = false →
    s.run = .running → ∃ t, exec i s = .next t ∧ ∀ f, t.run ≠ .faulted f

/-! ## Memory -/

/-- R41 and R42: the byte written is the byte read, no other byte changes, nothing else of the state changes. -/
def Obligations.MemoryWriteChangesOneByte : Prop :=
  ∀ (s : State) (addr v : Byte),
    (s.writeMem addr v).readMem addr = v ∧
    (∀ other, other ≠ addr → (s.writeMem addr v).readMem other = s.readMem other) ∧
    s.writeMem addr v = { s with mem := (s.writeMem addr v).mem }

/-- R53: a store to the address execution continues at is seen by the next fetch. -/
def Obligations.StoreIsSeenByTheNextFetch : Prop :=
  ∀ (s t : State) (addr b : Byte) (rb : RegIdx), RegNames s b rb → exec (.st addr b) s = .next t → t.pc = addr →
    t.fetch.head? = some s.regs[rb] ∧ t.fetch.length = lenOf s.regs[rb]

/-! ## LDI, PRN, HLT -/

/-- R100. The fault clause is the spec's decision D3 (R204, R205; log entry 3). -/
def Obligations.LdiLoadsTheImmediate : Prop :=
  ∀ (s : State) (a imm : Byte), s.params.opcodes.wf = true →
    (∀ r, RegNames s a r → CompletesWriting (.ldi a imm) s r imm (wrap8 (s.pc.toNat + 3))) ∧
    FaultsOnBadRegister (.ldi a imm) s a

/-- R101 at the level of events; the text the host makes of one is `OutEvent.text` (D9, log entry 12). -/
def Obligations.PrnEmitsTheRegister : Prop :=
  ∀ (s : State) (a : Byte) (r : RegIdx), RegNames s a r →
    exec (.prn a) s = .next { s with out := s.out ++ [.prn s.regs[r]], pc := advancedPc s .prn }

/-- R8: what PRN adds to the host's text is the register's value as a decimal numeral, and a newline. That the numeral
has no sign and no padding is the spec's decision D9 (log entry 12). -/
def Obligations.PrnAddsADecimalLineToTheText : Prop :=
  ∀ (s : State) (a : Byte) (r : RegIdx), RegNames s a r →
    ∃ t, exec (.prn a) s = .next t ∧ t.outText = s.outText ++ (Nat.toDigits 10 s.regs[r].toNat ++ ['\n'])

/-- R102 without `pc`, whose value after a halt no claim should rest on (U3). -/
def Obligations.HltHalts : Prop :=
  ∀ s : State, ∃ t, exec .hlt s = .next t ∧ t = { s with run := .halted, pc := t.pc }

/-- `pc` after HLT and after MOD's zero-divisor halt: the spec's decision D7 (log entry 10). -/
def Obligations.HaltsTakeTheGenericAdvance : Prop :=
  ∀ s : State, (∀ t, exec .hlt s = .next t → t.pc = advancedPc s .hlt) ∧
    (∀ a b ra rb t, RegNames s a ra → RegNames s b rb → s.regs[rb] = 0 → exec (.mod a b) s = .next t →
      t.pc = advancedPc s .mod)

/-! ## The ALU -/

/-- R111. The fault clause and its order, `a` before `b`, are the spec's decision D3 (R204 to R206; log entry 3). -/
def Obligations.AddWritesTheSumModulo256 : Prop :=
  ∀ (s : State) (a b : Byte), s.params.opcodes.wf = true →
    (∀ ra rb, RegNames s a ra → RegNames s b rb → CompletesWriting (.add a b) s ra
      (wrap8 (s.regs[ra].toNat + s.regs[rb].toNat)) (wrap8 (s.pc.toNat + 3))) ∧
    FaultsOnBadRegisters (.add a b) s a b

/-- R112, bit by bit. The fault clause and its order, `a` before `b`, are the spec's decision D3 (R204 to R206; log entry
3). -/
def Obligations.AndWritesTheConjunction : Prop :=
  ∀ (s : State) (a b : Byte), s.params.opcodes.wf = true →
    (∀ ra rb, RegNames s a ra → RegNames s b rb → ∃ v, CompletesWriting (.and a b) s ra v (wrap8 (s.pc.toNat + 3)) ∧
      ∀ k, k < 8 → v.getLsbD k = (s.regs[ra].getLsbD k && s.regs[rb].getLsbD k)) ∧
    FaultsOnBadRegisters (.and a b) s a b

/-- R117, bit by bit, with `NOT_OR_XOR_AS_AND = false`. The fault clause and its order, `a` before `b`, are the spec's
decision D3 (R204 to R206; log entry 3). -/
def Obligations.OrWritesTheDisjunction : Prop :=
  ∀ (s : State) (a b : Byte), s.params.opcodes.wf = true → s.params.notOrXorAsAnd = false →
    (∀ ra rb, RegNames s a ra → RegNames s b rb → ∃ v, CompletesWriting (.or a b) s ra v (wrap8 (s.pc.toNat + 3)) ∧
      ∀ k, k < 8 → v.getLsbD k = (s.regs[ra].getLsbD k || s.regs[rb].getLsbD k)) ∧
    FaultsOnBadRegisters (.or a b) s a b

/-- R120, bit by bit, with `NOT_OR_XOR_AS_AND = false`. The fault clause and its order, `a` before `b`, are the spec's
decision D3 (R204 to R206; log entry 3). -/
def Obligations.XorWritesTheExclusiveOr : Prop :=
  ∀ (s : State) (a b : Byte), s.params.opcodes.wf = true → s.params.notOrXorAsAnd = false →
    (∀ ra rb, RegNames s a ra → RegNames s b rb → ∃ v, CompletesWriting (.xor a b) s ra v (wrap8 (s.pc.toNat + 3)) ∧
      ∀ k, k < 8 → v.getLsbD k = (s.regs[ra].getLsbD k ^^ s.regs[rb].getLsbD k)) ∧
    FaultsOnBadRegisters (.xor a b) s a b

/-- R116, with `NOT_OR_XOR_AS_AND = false`. The fault clause is the spec's decision D3 (R204, R205; log entry 3). -/
def Obligations.NotWritesTheComplement : Prop :=
  ∀ (s : State) (a : Byte), s.params.notOrXorAsAnd = false →
    (∀ r, RegNames s a r →
      CompletesWriting (.not a) s r (wrap8 (255 - s.regs[r].toNat)) (advancedPc s .not)) ∧
    FaultsOnBadRegister (.not a) s a

/-- R115: the low 8 bits of the product. The fault clause and its order, `a` before `b`, are the spec's decision D3 (R204
to R206; log entry 3). -/
def Obligations.MulWritesTheLowByteOfTheProduct : Prop :=
  ∀ (s : State) (a b : Byte), s.params.opcodes.wf = true →
    (∀ ra rb, RegNames s a ra → RegNames s b rb → CompletesWriting (.mul a b) s ra
      (wrap8 (s.regs[ra].toNat * s.regs[rb].toNat)) (wrap8 (s.pc.toNat + 3))) ∧
    FaultsOnBadRegisters (.mul a b) s a b

/-- R122, compatibility mode: NOT, OR and XOR perform AND, NOT's second register being named by the byte at `pc + 2`,
and `pc` advances by each byte's own length. The spec's decision D10 (log entry 13). -/
def Obligations.CompatibilityModeMakesNotOrXorAnd : Prop :=
  ∀ s : State, s.params.notOrXorAsAnd = true → ∀ (a b : Byte) (ra rb : RegIdx), RegNames s a ra → RegNames s b rb →
    (∃ v, (∀ k, k < 8 → v.getLsbD k = (s.regs[ra].getLsbD k && s.regs[rb].getLsbD k)) ∧
      CompletesWriting (.or a b) s ra v (advancedPc s .or) ∧
      CompletesWriting (.xor a b) s ra v (advancedPc s .xor) ∧
      (s.readMem (wrap8 (s.pc.toNat + 2)) = b → CompletesWriting (.not a) s ra v (advancedPc s .not)))

/-- R113: exactly one flag becomes `true`, by the unsigned comparison (the spec's decision D4, log entry 7), the other
two and all else are left as they were. -/
def Obligations.CmpSetsExactlyOneFlag : Prop :=
  ∀ (s : State) (a b : Byte) (ra rb : RegIdx), s.params.opcodes.wf = true → RegNames s a ra → RegNames s b rb →
    (s.regs[ra].toNat = s.regs[rb].toNat →
      exec (.cmp a b) s = .next { s with E := true, pc := wrap8 (s.pc.toNat + 3) }) ∧
    (s.regs[rb].toNat < s.regs[ra].toNat →
      exec (.cmp a b) s = .next { s with G := true, pc := wrap8 (s.pc.toNat + 3) }) ∧
    (s.regs[ra].toNat < s.regs[rb].toNat →
      exec (.cmp a b) s = .next { s with L := true, pc := wrap8 (s.pc.toNat + 3) })

/-- R114 with a nonzero divisor: the unsigned remainder. -/
def Obligations.ModWritesTheRemainder : Prop :=
  ∀ (s : State) (a b : Byte) (ra rb : RegIdx), s.params.opcodes.wf = true → RegNames s a ra → RegNames s b rb →
    s.regs[rb] ≠ 0 → CompletesWriting (.mod a b) s ra
      (wrap8 (s.regs[ra].toNat % s.regs[rb].toNat)) (wrap8 (s.pc.toNat + 3))

/-- R202: a zero divisor halts, as HLT does, with the diagnostic on `out` as the only difference; no register, flag or
byte of memory is written. `pc` is left out (U3). -/
def Obligations.ModByZeroHaltsWithTheDiagnostic : Prop :=
  ∀ (s : State) (a b : Byte) (ra rb : RegIdx), RegNames s a ra → RegNames s b rb → s.regs[rb] = 0 →
    ∃ t, exec (.mod a b) s = .next t ∧
      t = { s with run := .halted, out := s.out ++ [.divZeroDiag], pc := t.pc }

/-- R118: shift left by the full value of the count. Counts of 8 and more, which give 0, are the spec's decision D17
(log entry 17). -/
def Obligations.ShlMultipliesByAPowerOfTwo : Prop :=
  ∀ (s : State) (a b : Byte) (ra rb : RegIdx), s.params.opcodes.wf = true → RegNames s a ra → RegNames s b rb →
    CompletesWriting (.shl a b) s ra (wrap8 (s.regs[ra].toNat * 2 ^ s.regs[rb].toNat)) (wrap8 (s.pc.toNat + 3))

/-- R119: logical shift right by the full value of the count. Counts of 8 and more, which give 0, are the spec's
decision D17 (log entry 17). -/
def Obligations.ShrDividesByAPowerOfTwo : Prop :=
  ∀ (s : State) (a b : Byte) (ra rb : RegIdx), s.params.opcodes.wf = true → RegNames s a ra → RegNames s b rb →
    CompletesWriting (.shr a b) s ra (wrap8 (s.regs[ra].toNat / 2 ^ s.regs[rb].toNat)) (wrap8 (s.pc.toNat + 3))

/-! ## The stack -/

/-- R140: the stack pointer goes down by one and the source is stored at its new value; a source R7 is read after the
decrement, the spec's decision D6 (log entry 9). -/
def Obligations.PushStoresBelowTheStackPointer : Prop :=
  ∀ (s : State) (a : Byte) (r : RegIdx), RegNames s a r →
    ∃ t, exec (.push a) s = .next t ∧ t.regs = s.regs.set sp (belowSp s) ∧ t.pc = advancedPc s .push ∧
      StoresByte s t (belowSp s) (if r = sp then belowSp s else s.regs[r]) ∧ SameBesides s t

/-- R141: the destination receives the byte at the stack pointer, that byte is cleared, and the stack pointer goes up by
one; a destination R7 receives the byte first and is then incremented, the spec's decision D6 (log entry 9). -/
def Obligations.PopLoadsAndClearsTheTop : Prop :=
  ∀ (s : State) (a : Byte) (r : RegIdx), RegNames s a r →
    ∃ t, exec (.pop a) s = .next t ∧ t.pc = advancedPc s .pop ∧
      (r ≠ sp → t.regs = (s.regs.set r (s.readMem s.regs[sp])).set sp (aboveSp s)) ∧
      (r = sp → t.regs = s.regs.set sp (wrap8 ((s.readMem s.regs[sp]).toNat + 1))) ∧
      StoresByte s t s.regs[sp] 0 ∧ SameBesides s t

/-- R142 with C1: the return address `pc + len` is stored below the stack pointer, which goes down by one, and `pc`
receives the target; a target R7 is read after the decrement, the spec's decision D6 (log entry 9). -/
def Obligations.CallPushesTheReturnAddress : Prop :=
  ∀ (s : State) (a : Byte) (r : RegIdx), RegNames s a r →
    ∃ t, exec (.call a) s = .next t ∧ t.regs = s.regs.set sp (belowSp s) ∧
      t.pc = (if r = sp then belowSp s else s.regs[r]) ∧
      StoresByte s t (belowSp s) (advancedPc s .call) ∧ SameBesides s t

/-- R143: `pc` receives the byte at the stack pointer, which goes up by one; the byte is not cleared. -/
def Obligations.RetPopsTheProgramCounter : Prop :=
  ∀ s : State, exec .ret s =
    .next { s with pc := s.readMem s.regs[sp], regs := s.regs.set sp (aboveSp s) }

/-- W2 with C6's precondition: PUSH of X and then POP into Y moves X's value to Y, restores the stack pointer, leaves the
slot used 0 and every other byte of memory as it was. -/
def Obligations.PushThenPopMovesTheValue : Prop :=
  ∀ (s : State) (a b : Byte) (ra rb : RegIdx), RegNames s a ra → RegNames s b rb → ra ≠ sp → rb ≠ sp →
    ∃ t u, exec (.push a) s = .next t ∧ exec (.pop b) t = .next u ∧ u.regs = s.regs.set rb s.regs[ra] ∧
      StoresByte s u (belowSp s) 0

/-- W3 with C1's correction: CALL and then RET returns to the instruction after the CALL, with every register as it was
before. -/
def Obligations.CallThenRetReturnsAfterTheCall : Prop :=
  ∀ (s : State) (a : Byte) (r : RegIdx), RegNames s a r →
    ∃ t u, exec (.call a) s = .next t ∧ exec .ret t = .next u ∧ u.pc = advancedPc s .call ∧ u.regs = s.regs

/-! ## Jumps and ST -/

/-- R160. The fault clause is the spec's decision D3 (R204, R205; log entry 3). -/
def Obligations.JmpSetsThePc : Prop :=
  ∀ (s : State) (a : Byte),
    (∀ r, RegNames s a r → exec (.jmp a) s = .next { s with pc := s.regs[r] }) ∧ FaultsOnBadRegister (.jmp a) s a

/-- R161. The fault clause, which holds whether or not the branch is taken, is the spec's decision D3 (R204 to R206; log
entry 3). -/
def Obligations.JeqJumpsWhenEIsSet : Prop :=
  ∀ (s : State) (a : Byte),
    (∀ r, RegNames s a r →
      exec (.jeq a) s = .next { s with pc := if s.E = true then s.regs[r] else advancedPc s .jeq }) ∧
    FaultsOnBadRegister (.jeq a) s a

/-- R162. The fault clause, which holds whether or not the branch is taken, is the spec's decision D3 (R204 to R206; log
entry 3). -/
def Obligations.JneJumpsWhenEIsClear : Prop :=
  ∀ (s : State) (a : Byte),
    (∀ r, RegNames s a r →
      exec (.jne a) s = .next { s with pc := if s.E = false then s.regs[r] else advancedPc s .jne }) ∧
    FaultsOnBadRegister (.jne a) s a

/-- R170: the address is the operand byte itself. The fault clause is the spec's decision D3 (R204, R205; log entry 3). -/
def Obligations.StStoresAtTheOperandAddress : Prop :=
  ∀ (s : State) (addr b : Byte), s.params.opcodes.wf = true →
    (∀ r, RegNames s b r → ∃ t, exec (.st addr b) s = .next t ∧ StoresByte s t addr s.regs[r] ∧
      t.regs = s.regs ∧ t.pc = wrap8 (s.pc.toNat + 3) ∧ SameBesides s t) ∧
    FaultsOnBadRegister (.st addr b) s b
end

