-- ==== Sys2Proof/Laws/PerInstr.lean ====
section
/-! SUPPORT. The family EncodingShape of LAWS.json: what an encoding looks like as bytes under a map that meets R63, one
lemma per constructor of Instr. -/

/-- R60 and R61 of an instruction's encoding: its first byte is the map's byte for it, its operand bytes follow, and it
is as long as that first byte says. -/
def Sys2Proof.Laws.EncodingShape.Statement (i : Sys2Proof.Instr) : Prop :=
  ∀ m : Sys2Proof.OpcodeMap, m.wf = true →
    (Sys2Proof.encode m i).length = Sys2Proof.lenOf (m.byteOf i.mnemonic) ∧
    (Sys2Proof.encode m i).head? = some (m.byteOf i.mnemonic) ∧
    ((Sys2Proof.encode m i).drop 1).take i.operands.length = i.operands

namespace Sys2Proof.Laws

/-- An instruction has as many operand bytes as its mnemonic uses. -/
theorem operands_length (i : Instr) : i.operands.length = i.mnemonic.operandBytes := by
  cases i <;> rfl

/-- The mnemonics of `Mnemonic.all` are all of them. -/
theorem mem_all (mn : Mnemonic) : mn ∈ Mnemonic.all := by cases mn <;> decide

/-- R63 clauses 2 to 4, per mnemonic. -/
theorem wf_length_fits {m : OpcodeMap} (h : m.wf = true) (mn : Mnemonic) :
    mn.operandBytes + 1 ≤ lenOf (m.byteOf mn) := by
  unfold OpcodeMap.wf OpcodeMap.lengthsFit at h
  simp only [Bool.and_eq_true, List.all_eq_true, decide_eq_true_eq] at h
  exact h.2 mn (mem_all mn)

/-- The shape of an encoding, for any instruction. -/
theorem encoding_shape (i : Instr) : EncodingShape.Statement i := by
  intro m h
  have := wf_length_fits h i.mnemonic
  have := operands_length i
  refine ⟨?_, rfl, ?_⟩
  · simp only [encode, List.length_cons, List.length_append, List.length_replicate]
    omega
  · simp [encode]

theorem EncodingShape.hlt : EncodingShape.Statement .hlt := encoding_shape _
theorem EncodingShape.ret : EncodingShape.Statement .ret := encoding_shape _
theorem EncodingShape.push (a : Byte) : EncodingShape.Statement (.push a) := encoding_shape _
theorem EncodingShape.pop (a : Byte) : EncodingShape.Statement (.pop a) := encoding_shape _
theorem EncodingShape.prn (a : Byte) : EncodingShape.Statement (.prn a) := encoding_shape _
theorem EncodingShape.call (a : Byte) : EncodingShape.Statement (.call a) := encoding_shape _
theorem EncodingShape.jmp (a : Byte) : EncodingShape.Statement (.jmp a) := encoding_shape _
theorem EncodingShape.jeq (a : Byte) : EncodingShape.Statement (.jeq a) := encoding_shape _
theorem EncodingShape.jne (a : Byte) : EncodingShape.Statement (.jne a) := encoding_shape _
theorem EncodingShape.not (a : Byte) : EncodingShape.Statement (.not a) := encoding_shape _
theorem EncodingShape.ldi (a imm : Byte) : EncodingShape.Statement (.ldi a imm) := encoding_shape _
theorem EncodingShape.st (addr b : Byte) : EncodingShape.Statement (.st addr b) := encoding_shape _
theorem EncodingShape.add (a b : Byte) : EncodingShape.Statement (.add a b) := encoding_shape _
theorem EncodingShape.mul (a b : Byte) : EncodingShape.Statement (.mul a b) := encoding_shape _
theorem EncodingShape.mod (a b : Byte) : EncodingShape.Statement (.mod a b) := encoding_shape _
theorem EncodingShape.cmp (a b : Byte) : EncodingShape.Statement (.cmp a b) := encoding_shape _
theorem EncodingShape.and (a b : Byte) : EncodingShape.Statement (.and a b) := encoding_shape _
theorem EncodingShape.or (a b : Byte) : EncodingShape.Statement (.or a b) := encoding_shape _
theorem EncodingShape.xor (a b : Byte) : EncodingShape.Statement (.xor a b) := encoding_shape _
theorem EncodingShape.shl (a b : Byte) : EncodingShape.Statement (.shl a b) := encoding_shape _
theorem EncodingShape.shr (a b : Byte) : EncodingShape.Statement (.shr a b) := encoding_shape _

end Sys2Proof.Laws
end

