-- ==== Sys2Proof/Laws/Decode.lean ====
section
/-! SUPPORT. The decoder: lengths, and that a map that meets R63 can be inverted. -/

namespace Sys2Proof.Laws

theorem lenOf_cases (ir : Byte) : lenOf ir = 1 ∨ lenOf ir = 2 ∨ lenOf ir = 3 := by
  unfold lenOf
  split <;> [skip; split] <;> simp

theorem lenOf_pos (ir : Byte) : 0 < lenOf ir := by
  rcases lenOf_cases ir with h | h | h <;> omega

/-- R61 by the number: bit 7 is set from 128 on, bit 6 alone from 64 to 127. -/
theorem lenOf_eq (ir : Byte) : lenOf ir = if 128 ≤ ir.toNat then 3 else if 64 ≤ ir.toNat then 2 else 1 := by
  revert ir; decide

theorem distinctBytes_map {α : Type} {f : α → Byte} {l : List α} (h : distinctBytes (l.map f) = true)
    {x y : α} (hx : x ∈ l) (hy : y ∈ l) (e : f x = f y) : x = y := by
  induction l with
  | nil => simp at hx
  | cons c rest ih =>
    simp only [List.map_cons, distinctBytes, Bool.and_eq_true, Bool.not_eq_true', List.contains_eq_mem,
      decide_eq_false_iff_not, List.mem_map, not_exists, not_and] at h
    rcases List.mem_cons.mp hx with rfl | hx' <;> rcases List.mem_cons.mp hy with rfl | hy'
    · rfl
    · exact absurd e.symm (h.1 y hy')
    · exact absurd e (h.1 x hx')
    · exact ih h.2 hx' hy'

/-- R63 clause 1: two mnemonics with the same byte are the same. -/
theorem byteOf_injective {m : OpcodeMap} (h : m.wf = true) {x y : Mnemonic} (e : m.byteOf x = m.byteOf y) : x = y := by
  unfold OpcodeMap.wf OpcodeMap.injective at h
  simp only [Bool.and_eq_true] at h
  exact distinctBytes_map h.1 (mem_all x) (mem_all y) e

/-- The inverse of a map finds each mnemonic by its byte. -/
theorem find_byteOf {m : OpcodeMap} (h : m.wf = true) (mn : Mnemonic) : m.find (m.byteOf mn) = some mn := by
  unfold OpcodeMap.find
  cases e : Mnemonic.all.find? fun x => m.byteOf x == m.byteOf mn with
  | none => exact absurd (beq_self_eq_true _) (List.find?_eq_none.mp e mn (mem_all mn))
  | some x => exact congrArg some (byteOf_injective h (by simpa using List.find?_some e))

/-- What the inverse of any map finds has that byte. -/
theorem find_some {m : OpcodeMap} {ir : Byte} {mn : Mnemonic} (h : m.find ir = some mn) : m.byteOf mn = ir := by
  simpa using List.find?_some h

/-- The inverse of any map finds nothing for a byte it does not hold. -/
theorem find_none {m : OpcodeMap} {ir : Byte} : m.find ir = none ↔ ∀ mn, m.byteOf mn ≠ ir := by
  unfold OpcodeMap.find
  simp only [List.find?_eq_none, beq_iff_eq]
  exact ⟨fun h mn => h mn (mem_all mn), fun h mn _ => h mn⟩

/-- An instruction is built from its own operand bytes, and bytes after them do not matter (D19). -/
theorem build_operands (i : Instr) (extra : List Byte) : i.mnemonic.build (i.operands ++ extra) = some i := by
  cases i <;> rfl

/-- Enough operand bytes build an instruction of the mnemonic, whose operands they begin with. -/
theorem build_of_length {mn : Mnemonic} {bs : List Byte} (h : mn.operandBytes ≤ bs.length) :
    ∃ i : Instr, mn.build bs = some i ∧ i.mnemonic = mn ∧ i.operands = bs.take mn.operandBytes := by
  match bs, h with
  | [], h => cases mn <;> simp [Mnemonic.operandBytes] at h <;> exact ⟨_, rfl, rfl, rfl⟩
  | [x], h => cases mn <;> simp [Mnemonic.operandBytes] at h <;> exact ⟨_, rfl, rfl, rfl⟩
  | x :: y :: rest, _ => cases mn <;> exact ⟨_, rfl, rfl, rfl⟩

/-- The default map meets R63. -/
theorem default_wf : OpcodeMap.default.wf = true := by decide

end Sys2Proof.Laws
end

