-- ==== Sys2Proof/Laws/State.lean ====
section
/-! SUPPORT. One lemma per field per update of State (Machine/Ops.lean), true by rfl, so that no later proof unfolds a
record update; the few for reading after an update; and those of `State.compare`. -/

namespace Sys2Proof.Machine

variable (s : State)

@[simp] theorem State.setReg_mem (r : RegIdx) (v : Byte) : (s.setReg r v).mem = s.mem := rfl
@[simp] theorem State.setReg_regs (r : RegIdx) (v : Byte) : (s.setReg r v).regs = s.regs.set r v := rfl
@[simp] theorem State.setReg_pc (r : RegIdx) (v : Byte) : (s.setReg r v).pc = s.pc := rfl
@[simp] theorem State.setReg_E (r : RegIdx) (v : Byte) : (s.setReg r v).E = s.E := rfl
@[simp] theorem State.setReg_G (r : RegIdx) (v : Byte) : (s.setReg r v).G = s.G := rfl
@[simp] theorem State.setReg_L (r : RegIdx) (v : Byte) : (s.setReg r v).L = s.L := rfl
@[simp] theorem State.setReg_run (r : RegIdx) (v : Byte) : (s.setReg r v).run = s.run := rfl
@[simp] theorem State.setReg_out (r : RegIdx) (v : Byte) : (s.setReg r v).out = s.out := rfl
@[simp] theorem State.setReg_params (r : RegIdx) (v : Byte) : (s.setReg r v).params = s.params := rfl

@[simp] theorem State.writeMem_mem (a v : Byte) : (s.writeMem a v).mem = Memory.write s.mem a.toNat v := rfl
@[simp] theorem State.writeMem_regs (a v : Byte) : (s.writeMem a v).regs = s.regs := rfl
@[simp] theorem State.writeMem_pc (a v : Byte) : (s.writeMem a v).pc = s.pc := rfl
@[simp] theorem State.writeMem_E (a v : Byte) : (s.writeMem a v).E = s.E := rfl
@[simp] theorem State.writeMem_G (a v : Byte) : (s.writeMem a v).G = s.G := rfl
@[simp] theorem State.writeMem_L (a v : Byte) : (s.writeMem a v).L = s.L := rfl
@[simp] theorem State.writeMem_run (a v : Byte) : (s.writeMem a v).run = s.run := rfl
@[simp] theorem State.writeMem_out (a v : Byte) : (s.writeMem a v).out = s.out := rfl
@[simp] theorem State.writeMem_params (a v : Byte) : (s.writeMem a v).params = s.params := rfl

@[simp] theorem State.advance_mem (n : Nat) : (s.advance n).mem = s.mem := rfl
@[simp] theorem State.advance_regs (n : Nat) : (s.advance n).regs = s.regs := rfl
@[simp] theorem State.advance_pc (n : Nat) : (s.advance n).pc = s.pc + wrap8 n := rfl
@[simp] theorem State.advance_E (n : Nat) : (s.advance n).E = s.E := rfl
@[simp] theorem State.advance_G (n : Nat) : (s.advance n).G = s.G := rfl
@[simp] theorem State.advance_L (n : Nat) : (s.advance n).L = s.L := rfl
@[simp] theorem State.advance_run (n : Nat) : (s.advance n).run = s.run := rfl
@[simp] theorem State.advance_out (n : Nat) : (s.advance n).out = s.out := rfl
@[simp] theorem State.advance_params (n : Nat) : (s.advance n).params = s.params := rfl

@[simp] theorem State.redirect_mem (t : Byte) : (s.redirect t).mem = s.mem := rfl
@[simp] theorem State.redirect_regs (t : Byte) : (s.redirect t).regs = s.regs := rfl
@[simp] theorem State.redirect_pc (t : Byte) : (s.redirect t).pc = t := rfl
@[simp] theorem State.redirect_E (t : Byte) : (s.redirect t).E = s.E := rfl
@[simp] theorem State.redirect_G (t : Byte) : (s.redirect t).G = s.G := rfl
@[simp] theorem State.redirect_L (t : Byte) : (s.redirect t).L = s.L := rfl
@[simp] theorem State.redirect_run (t : Byte) : (s.redirect t).run = s.run := rfl
@[simp] theorem State.redirect_out (t : Byte) : (s.redirect t).out = s.out := rfl
@[simp] theorem State.redirect_params (t : Byte) : (s.redirect t).params = s.params := rfl

@[simp] theorem State.emit_mem (ev : OutEvent) : (s.emit ev).mem = s.mem := rfl
@[simp] theorem State.emit_regs (ev : OutEvent) : (s.emit ev).regs = s.regs := rfl
@[simp] theorem State.emit_pc (ev : OutEvent) : (s.emit ev).pc = s.pc := rfl
@[simp] theorem State.emit_E (ev : OutEvent) : (s.emit ev).E = s.E := rfl
@[simp] theorem State.emit_G (ev : OutEvent) : (s.emit ev).G = s.G := rfl
@[simp] theorem State.emit_L (ev : OutEvent) : (s.emit ev).L = s.L := rfl
@[simp] theorem State.emit_run (ev : OutEvent) : (s.emit ev).run = s.run := rfl
@[simp] theorem State.emit_out (ev : OutEvent) : (s.emit ev).out = s.out ++ [ev] := rfl
@[simp] theorem State.emit_params (ev : OutEvent) : (s.emit ev).params = s.params := rfl

@[simp] theorem State.halt_mem : (s.halt).mem = s.mem := rfl
@[simp] theorem State.halt_regs : (s.halt).regs = s.regs := rfl
@[simp] theorem State.halt_pc : (s.halt).pc = s.pc := rfl
@[simp] theorem State.halt_E : (s.halt).E = s.E := rfl
@[simp] theorem State.halt_G : (s.halt).G = s.G := rfl
@[simp] theorem State.halt_L : (s.halt).L = s.L := rfl
@[simp] theorem State.halt_run : (s.halt).run = .halted := rfl
@[simp] theorem State.halt_out : (s.halt).out = s.out := rfl
@[simp] theorem State.halt_params : (s.halt).params = s.params := rfl

@[simp] theorem State.enterFaulted_mem (f : FaultRecord) : (s.enterFaulted f).mem = s.mem := rfl
@[simp] theorem State.enterFaulted_regs (f : FaultRecord) : (s.enterFaulted f).regs = s.regs := rfl
@[simp] theorem State.enterFaulted_pc (f : FaultRecord) : (s.enterFaulted f).pc = s.pc := rfl
@[simp] theorem State.enterFaulted_E (f : FaultRecord) : (s.enterFaulted f).E = s.E := rfl
@[simp] theorem State.enterFaulted_G (f : FaultRecord) : (s.enterFaulted f).G = s.G := rfl
@[simp] theorem State.enterFaulted_L (f : FaultRecord) : (s.enterFaulted f).L = s.L := rfl
@[simp] theorem State.enterFaulted_run (f : FaultRecord) : (s.enterFaulted f).run = .faulted f := rfl
@[simp] theorem State.enterFaulted_out (f : FaultRecord) : (s.enterFaulted f).out = s.out := rfl
@[simp] theorem State.enterFaulted_params (f : FaultRecord) : (s.enterFaulted f).params = s.params := rfl

@[simp] theorem State.decSp_mem : (s.decSp).mem = s.mem := rfl
@[simp] theorem State.decSp_regs : (s.decSp).regs = s.regs.set sp (s.reg sp - 1) := rfl
@[simp] theorem State.decSp_pc : (s.decSp).pc = s.pc := rfl
@[simp] theorem State.decSp_E : (s.decSp).E = s.E := rfl
@[simp] theorem State.decSp_G : (s.decSp).G = s.G := rfl
@[simp] theorem State.decSp_L : (s.decSp).L = s.L := rfl
@[simp] theorem State.decSp_run : (s.decSp).run = s.run := rfl
@[simp] theorem State.decSp_out : (s.decSp).out = s.out := rfl
@[simp] theorem State.decSp_params : (s.decSp).params = s.params := rfl

@[simp] theorem State.incSp_mem : (s.incSp).mem = s.mem := rfl
@[simp] theorem State.incSp_regs : (s.incSp).regs = s.regs.set sp (s.reg sp + 1) := rfl
@[simp] theorem State.incSp_pc : (s.incSp).pc = s.pc := rfl
@[simp] theorem State.incSp_E : (s.incSp).E = s.E := rfl
@[simp] theorem State.incSp_G : (s.incSp).G = s.G := rfl
@[simp] theorem State.incSp_L : (s.incSp).L = s.L := rfl
@[simp] theorem State.incSp_run : (s.incSp).run = s.run := rfl
@[simp] theorem State.incSp_out : (s.incSp).out = s.out := rfl
@[simp] theorem State.incSp_params : (s.incSp).params = s.params := rfl

/-! ## Reading after an update -/

@[simp] theorem State.setReg_readMem (r : RegIdx) (v a : Byte) : (s.setReg r v).readMem a = s.readMem a := rfl
@[simp] theorem State.advance_readMem (n : Nat) (a : Byte) : (s.advance n).readMem a = s.readMem a := rfl
@[simp] theorem State.redirect_readMem (t a : Byte) : (s.redirect t).readMem a = s.readMem a := rfl
@[simp] theorem State.emit_readMem (ev : OutEvent) (a : Byte) : (s.emit ev).readMem a = s.readMem a := rfl
@[simp] theorem State.halt_readMem (a : Byte) : s.halt.readMem a = s.readMem a := rfl
@[simp] theorem State.enterFaulted_readMem (f : FaultRecord) (a : Byte) :
    (s.enterFaulted f).readMem a = s.readMem a := rfl
@[simp] theorem State.decSp_readMem (a : Byte) : s.decSp.readMem a = s.readMem a := rfl
@[simp] theorem State.incSp_readMem (a : Byte) : s.incSp.readMem a = s.readMem a := rfl

@[simp] theorem State.writeMem_reg (a v : Byte) (q : RegIdx) : (s.writeMem a v).reg q = s.reg q := rfl
@[simp] theorem State.advance_reg (n : Nat) (q : RegIdx) : (s.advance n).reg q = s.reg q := rfl
@[simp] theorem State.redirect_reg (t : Byte) (q : RegIdx) : (s.redirect t).reg q = s.reg q := rfl
@[simp] theorem State.emit_reg (ev : OutEvent) (q : RegIdx) : (s.emit ev).reg q = s.reg q := rfl
@[simp] theorem State.halt_reg (q : RegIdx) : s.halt.reg q = s.reg q := rfl
@[simp] theorem State.enterFaulted_reg (f : FaultRecord) (q : RegIdx) : (s.enterFaulted f).reg q = s.reg q := rfl

/-- A register read after a register write (R21: eight independent registers). -/
theorem State.setReg_reg (r q : RegIdx) (v : Byte) :
    (s.setReg r v).reg q = if q = r then v else s.reg q := by
  simp only [State.reg, State.setReg, Fin.getElem_fin, Vector.getElem_set, Fin.ext_iff, eq_comm]

@[simp] theorem State.setReg_reg_same (r : RegIdx) (v : Byte) : (s.setReg r v).reg r = v := by
  simp [State.setReg_reg]

theorem State.setReg_reg_other (r q : RegIdx) (v : Byte) (h : q ≠ r) : (s.setReg r v).reg q = s.reg q := by
  simp [State.setReg_reg, h]

theorem State.decSp_reg (q : RegIdx) : s.decSp.reg q = if q = sp then s.reg sp - 1 else s.reg q :=
  State.setReg_reg ..

theorem State.incSp_reg (q : RegIdx) : s.incSp.reg q = if q = sp then s.reg sp + 1 else s.reg q :=
  State.setReg_reg ..

/-! ## The flags CMP writes (R113) -/

variable (va vb : Byte)

/-- All that `State.compare` can do: one flag becomes true. -/
theorem State.compare_cases :
    (va = vb ∧ s.compare va vb = { s with E := true }) ∨
    (vb < va ∧ s.compare va vb = { s with G := true }) ∨
    (va < vb ∧ s.compare va vb = { s with L := true }) := by
  unfold State.compare
  split
  next h => exact .inl ⟨h, rfl⟩
  next h =>
    split
    next h' => exact .inr (.inl ⟨h', rfl⟩)
    next h' => exact .inr (.inr ⟨by bv_omega, rfl⟩)

@[simp] theorem State.compare_mem : (s.compare va vb).mem = s.mem := by
  rcases s.compare_cases va vb with ⟨_, e⟩ | ⟨_, e⟩ | ⟨_, e⟩ <;> rw [e]

@[simp] theorem State.compare_regs : (s.compare va vb).regs = s.regs := by
  rcases s.compare_cases va vb with ⟨_, e⟩ | ⟨_, e⟩ | ⟨_, e⟩ <;> rw [e]

@[simp] theorem State.compare_pc : (s.compare va vb).pc = s.pc := by
  rcases s.compare_cases va vb with ⟨_, e⟩ | ⟨_, e⟩ | ⟨_, e⟩ <;> rw [e]

@[simp] theorem State.compare_run : (s.compare va vb).run = s.run := by
  rcases s.compare_cases va vb with ⟨_, e⟩ | ⟨_, e⟩ | ⟨_, e⟩ <;> rw [e]

@[simp] theorem State.compare_out : (s.compare va vb).out = s.out := by
  rcases s.compare_cases va vb with ⟨_, e⟩ | ⟨_, e⟩ | ⟨_, e⟩ <;> rw [e]

@[simp] theorem State.compare_params : (s.compare va vb).params = s.params := by
  rcases s.compare_cases va vb with ⟨_, e⟩ | ⟨_, e⟩ | ⟨_, e⟩ <;> rw [e]

theorem State.compare_E : (s.compare va vb).E = (s.E || decide (va = vb)) := by
  unfold State.compare
  split <;> [skip; split] <;> simp_all

theorem State.compare_G : (s.compare va vb).G = (s.G || decide (vb < va)) := by
  unfold State.compare
  split <;> [skip; split] <;> simp_all

theorem State.compare_L : (s.compare va vb).L = (s.L || decide (va < vb)) := by
  rcases s.compare_cases va vb with ⟨h, e⟩ | ⟨h, e⟩ | ⟨h, e⟩
  · subst h
    simp [e]
  · have : ¬ va < vb := by bv_omega
    simp [e, this]
  · simp [e, h]

@[simp] theorem State.compare_reg (q : RegIdx) : (s.compare va vb).reg q = s.reg q := by simp [State.reg]

@[simp] theorem State.compare_readMem (a : Byte) : (s.compare va vb).readMem a = s.readMem a := by simp [State.readMem]

end Sys2Proof.Machine
end

