-- ==== Sys2Proof/Laws/Memory.lean ====
section
/-! SUPPORT. Memory (R40 to R42): reading after writing, for every list of cells, and that every operation keeps the
canonical form. -/

namespace Sys2Proof.Machine

theorem Memory.read_insert (m : Memory) (a b : Nat) (v : Byte) (h : ∀ c ∈ m, c.1 ≠ a) :
    Memory.read (m.insert a v) b = if a = b then v else Memory.read m b := by
  induction m with
  | nil => rfl
  | cons c rest ih =>
    obtain ⟨k, w⟩ := c
    have hk : k ≠ a := h _ List.mem_cons_self
    have ih := ih fun c hc => h c (List.mem_cons_of_mem _ hc)
    unfold Memory.insert
    split
    · rfl
    · simp only [Memory.read, ih]
      by_cases e : k = b <;> by_cases e' : a = b <;> simp_all

theorem Memory.read_erase (m : Memory) (a b : Nat) :
    Memory.read (m.erase a) b = if a = b then Memory.unlisted else Memory.read m b := by
  induction m with
  | nil => simp [Memory.erase, Memory.read]
  | cons c rest ih =>
    obtain ⟨k, w⟩ := c
    unfold Memory.erase at ih ⊢
    rw [List.filter_cons]
    by_cases e : k = a
    · subst e
      by_cases e' : k = b <;> simp_all [Memory.read]
    · by_cases e' : k = b <;> by_cases e'' : a = b <;> simp_all [Memory.read]

theorem Memory.not_mem_erase (m : Memory) (a : Nat) : ∀ c ∈ m.erase a, c.1 ≠ a := by
  simp [Memory.erase]

/-- R41 and R42 on the list: the byte written is read back, every other byte is as before. -/
theorem Memory.read_write (m : Memory) (a b : Nat) (v : Byte) :
    Memory.read (m.write a v) b = if a = b then v else Memory.read m b := by
  unfold Memory.write
  split
  next h => simp [Memory.read_erase, h]
  next h =>
    rw [Memory.read_insert _ _ _ _ (m.not_mem_erase a), Memory.read_erase]
    split <;> simp_all

@[simp] theorem State.readMem_writeMem_same (s : State) (a v : Byte) : (s.writeMem a v).readMem a = v := by
  simp [State.readMem, Memory.read_write]

theorem State.readMem_writeMem_other (s : State) (a b v : Byte) (h : b ≠ a) :
    (s.writeMem a v).readMem b = s.readMem b := by
  have : a.toNat ≠ b.toNat := fun e => h (BitVec.eq_of_toNat_eq e.symm)
  simp [State.readMem, Memory.read_write, this]

/-! ## The canonical form -/

theorem Memory.wfFrom_mono {lo lo' : Nat} {m : Memory} (h : Memory.wfFrom lo m = true) (hl : lo' ≤ lo) :
    Memory.wfFrom lo' m = true := by
  cases m with
  | nil => rfl
  | cons c rest =>
    simp only [Memory.wfFrom, Bool.and_eq_true, decide_eq_true_eq] at h ⊢
    exact ⟨⟨⟨by omega, h.1.1.2⟩, h.1.2⟩, h.2⟩

theorem Memory.erase_wfFrom {lo : Nat} {m : Memory} (a : Nat) (h : Memory.wfFrom lo m = true) :
    Memory.wfFrom lo (m.erase a) = true := by
  induction m generalizing lo with
  | nil => exact h
  | cons c rest ih =>
    obtain ⟨k, w⟩ := c
    simp only [Memory.wfFrom, Bool.and_eq_true, decide_eq_true_eq] at h
    have ih := ih h.2
    unfold Memory.erase at ih ⊢
    rw [List.filter_cons]
    split
    · simp only [Memory.wfFrom, Bool.and_eq_true, decide_eq_true_eq]
      exact ⟨h.1, ih⟩
    · exact Memory.wfFrom_mono ih (by omega)

theorem Memory.insert_wfFrom {lo : Nat} {m : Memory} {a : Nat} {v : Byte} (h : Memory.wfFrom lo m = true)
    (hlo : lo ≤ a) (ha : a < 256) (hv : v ≠ Memory.unlisted) (hm : ∀ c ∈ m, c.1 ≠ a) :
    Memory.wfFrom lo (m.insert a v) = true := by
  induction m generalizing lo with
  | nil => simp [Memory.insert, Memory.wfFrom, hlo, ha, hv]
  | cons c rest ih =>
    obtain ⟨k, w⟩ := c
    have hk : k ≠ a := hm _ List.mem_cons_self
    have h' := h
    simp only [Memory.wfFrom, Bool.and_eq_true, decide_eq_true_eq] at h
    unfold Memory.insert
    split
    next hlt =>
      simp only [Memory.wfFrom, Bool.and_eq_true, decide_eq_true_eq, bne_iff_ne]
      exact ⟨⟨⟨hlo, ha⟩, hv⟩, ⟨⟨by omega, h.1.1.2⟩, by simpa using h.1.2⟩, h.2⟩
    next hlt =>
      simp only [Memory.wfFrom, Bool.and_eq_true, decide_eq_true_eq]
      exact ⟨h.1, ih h.2 (by omega) fun c hc => hm c (List.mem_cons_of_mem _ hc)⟩

/-- Every memory operation is a write, and a write at an address of the space keeps the canonical form. -/
theorem Memory.write_wf {m : Memory} {a : Nat} {v : Byte} (h : m.wf = true) (ha : a < 256) :
    (m.write a v).wf = true := by
  unfold Memory.write
  split
  · exact Memory.erase_wfFrom a h
  next hv => exact Memory.insert_wfFrom (Memory.erase_wfFrom a h) (Nat.zero_le _) ha hv (m.not_mem_erase a)

theorem State.writeMem_wf {s : State} (a v : Byte) (h : s.mem.wf = true) : (s.writeMem a v).mem.wf = true :=
  Memory.write_wf h a.isLt

/-- Memory after reset is in canonical form. -/
theorem reset_mem_wf : State.reset.mem.wf = true := rfl

/-- Two memories in canonical form that read the same everywhere are the same list. -/
theorem Memory.read_below {lo : Nat} {m : Memory} (h : Memory.wfFrom lo m = true) {a : Nat} (ha : a < lo) :
    Memory.read m a = Memory.unlisted := by
  induction m generalizing lo with
  | nil => rfl
  | cons c rest ih =>
    obtain ⟨k, w⟩ := c
    simp only [Memory.wfFrom, Bool.and_eq_true, decide_eq_true_eq] at h
    have : k ≠ a := by omega
    simp only [Memory.read, this, if_false]
    exact ih h.2 (by omega)

theorem Memory.ext_of_read {lo : Nat} {m n : Memory} (hm : Memory.wfFrom lo m = true)
    (hn : Memory.wfFrom lo n = true) (h : ∀ a, Memory.read m a = Memory.read n a) : m = n := by
  induction m generalizing lo n with
  | nil =>
    cases n with
    | nil => rfl
    | cons c rest =>
      obtain ⟨k, w⟩ := c
      have := h k
      simp_all [Memory.wfFrom, Memory.read]
  | cons c rest ih =>
    obtain ⟨k, w⟩ := c
    cases n with
    | nil =>
      have := h k
      simp_all [Memory.wfFrom, Memory.read]
    | cons c' rest' =>
      obtain ⟨k', w'⟩ := c'
      simp only [Memory.wfFrom, Bool.and_eq_true, decide_eq_true_eq, bne_iff_ne] at hm hn
      have hkk : k = k' := by
        rcases Nat.lt_trichotomy k k' with hlt | heq | hgt
        · have e := h k
          have ne : k' ≠ k := by omega
          simp only [Memory.read, if_true, ne, if_false, Memory.read_below hn.2 (by omega : k < k' + 1)] at e
          exact absurd e hm.1.2
        · exact heq
        · have e := h k'
          have ne : k ≠ k' := by omega
          simp only [Memory.read, if_true, ne, if_false, Memory.read_below hm.2 (by omega : k' < k + 1)] at e
          exact absurd e.symm hn.1.2
      subst hkk
      have hw : w = w' := by simpa [Memory.read] using h k
      subst hw
      refine congrArg _ (ih hm.2 hn.2 fun a => ?_)
      by_cases e : k = a
      · rw [Memory.read_below hm.2 (by omega), Memory.read_below hn.2 (by omega)]
      · simpa [Memory.read, e] using h a

end Sys2Proof.Machine
end

