-- ==== Sys2Proof/Laws/Ops.lean ====
section
/-! SUPPORT. For each shared operation, one lemma that says all it can do: the index check, register operands, the ALU
form, the jump form, fetching, placing bytes, and the cycle. -/

namespace Sys2Proof.Machine

/-! ## Register operands (R204) -/

theorem regIndex_some_iff (s : State) (i : Byte) (r : RegIdx) :
    regIndex s.params.regIndexMode i = some r ↔ RegNames s i r := by
  unfold regIndex RegNames
  split
  next h =>
    simp only [Option.some.injEq, Fin.ext_iff]
    constructor
    · intro e; exact ⟨.inl (by omega), by omega⟩
    · intro e; omega
  next h =>
    cases hm : s.params.regIndexMode <;> (simp [Fin.ext_iff, eq_comm]; try omega)

theorem regIndex_none_iff (s : State) (i : Byte) :
    regIndex s.params.regIndexMode i = none ↔ RegFaults s i := by
  unfold regIndex RegFaults
  split
  next h => simp; omega
  next h => cases hm : s.params.regIndexMode <;> (simp; try omega)

/-- An operand byte names one register or faults, never both. -/
theorem reg_names_or_faults (s : State) (i : Byte) : (∃ r, RegNames s i r) ∨ RegFaults s i := by
  cases h : regIndex s.params.regIndexMode i with
  | none => exact .inr ((regIndex_none_iff s i).mp h)
  | some r => exact .inl ⟨r, (regIndex_some_iff s i r).mp h⟩

theorem RegNames.not_faults {s : State} {i : Byte} {r : RegIdx} (h : RegNames s i r) : ¬ RegFaults s i := by
  intro h'
  have := (regIndex_some_iff s i r).mpr h
  rw [(regIndex_none_iff s i).mpr h'] at this
  exact absurd this (by simp)

theorem RegNames.unique {s : State} {i : Byte} {r q : RegIdx} (h : RegNames s i r) (h' : RegNames s i q) : r = q := by
  simpa [(regIndex_some_iff s i r).mpr h] using (regIndex_some_iff s i q).mpr h'

variable {s t : State} {a b : Byte} {ra rb : RegIdx}

theorem withReg_names (h : RegNames s a ra) (k : RegIdx → Host.Outcome State Fault Refusal) :
    withReg a s k = k ra := by
  simp [withReg, (regIndex_some_iff s a ra).mpr h]

theorem withReg_faults (h : RegFaults s a) (k : RegIdx → Host.Outcome State Fault Refusal) :
    withReg a s k = raiseRegIndexFault a s := by
  simp [withReg, (regIndex_none_iff s a).mpr h]

theorem withRegs_names (ha : RegNames s a ra) (hb : RegNames s b rb)
    (k : RegIdx → RegIdx → Host.Outcome State Fault Refusal) : withRegs a b s k = k ra rb := by
  simp [withRegs, withReg_names ha, withReg_names hb]

/-- All a register operand can do: name a register and go on, or raise the fault of R205. -/
theorem withReg_next {k : RegIdx → Host.Outcome State Fault Refusal} (h : withReg a s k = .next t) :
    (∃ r, RegNames s a r ∧ k r = .next t) ∨ (RegFaults s a ∧ t = s.enterFaulted (.regIndexFault a)) := by
  rcases reg_names_or_faults s a with ⟨r, hr⟩ | hf
  · exact .inl ⟨r, hr, by rwa [withReg_names hr] at h⟩
  · rw [withReg_faults hf] at h
    exact .inr ⟨hf, (Host.Outcome.next.inj h).symm⟩

/-- All two register operands can do. -/
theorem withRegs_next {k : RegIdx → RegIdx → Host.Outcome State Fault Refusal} (h : withRegs a b s k = .next t) :
    (∃ ra rb, RegNames s a ra ∧ RegNames s b rb ∧ k ra rb = .next t) ∨
    (RegFaults s a ∧ t = s.enterFaulted (.regIndexFault a)) ∨
    (¬ RegFaults s a ∧ RegFaults s b ∧ t = s.enterFaulted (.regIndexFault b)) := by
  rcases withReg_next h with ⟨ra, hra, h⟩ | h
  · rcases withReg_next h with ⟨rb, hrb, h⟩ | h
    · exact .inl ⟨ra, rb, hra, hrb, h⟩
    · exact .inr (.inr ⟨hra.not_faults, h⟩)
  · exact .inr (.inl h)

/-! ## The shared forms of the ALU and the jumps -/

theorem aluBinary_names (mn : Mnemonic) (f : Byte → Byte → Byte) (ha : RegNames s a ra) (hb : RegNames s b rb) :
    aluBinary mn f a b s = .next ((s.setReg ra (f (s.reg ra) (s.reg rb))).advance (s.len mn)) :=
  withRegs_names ha hb _

theorem jumpIf_names (mn : Mnemonic) (taken : Bool) (ha : RegNames s a ra) :
    jumpIf mn taken a s = .next (if taken then s.redirect (s.reg ra) else s.advance (s.len mn)) :=
  withReg_names ha _

/-! ## The program counter -/

theorem wrap8_toNat_add (x : Byte) (n : Nat) : x + wrap8 n = wrap8 (x.toNat + n) := by
  simp [wrap8, BitVec.ofNat_add]

/-- The generic advance in the numbers of R25. -/
theorem pcPlus_eq (s : State) (n : Nat) : s.pcPlus n = wrap8 (s.pc.toNat + n) := wrap8_toNat_add ..

theorem pcPlus_len (s : State) (mn : Mnemonic) : s.pcPlus (s.len mn) = advancedPc s mn := pcPlus_eq ..

theorem belowSp_eq (s : State) : belowSp s = s.reg sp - 1 := by
  have := (wrap8_toNat_add (s.reg sp) 255).symm
  rw [show belowSp s = _ from this]
  simp only [wrap8]
  bv_omega

theorem aboveSp_eq (s : State) : aboveSp s = s.reg sp + 1 := (wrap8_toNat_add (s.reg sp) 1).symm

/-! ## Fetching and placing bytes -/

theorem fetch_length (s : State) : s.fetch.length = lenOf (s.readMem s.pc) := by simp [State.fetch]

/-- What is fetched begins with the byte at `pc`. -/
theorem fetch_cons (s : State) :
    ∃ rest, s.fetch = s.readMem s.pc :: rest ∧ rest.length + 1 = lenOf (s.readMem s.pc) := by
  have hl := fetch_length s
  cases h : s.fetch with
  | nil => rw [h] at hl; exact absurd hl.symm (by have := Laws.lenOf_pos (s.readMem s.pc); simpa using by omega)
  | cons c rest =>
    refine ⟨rest, ?_, by rw [h] at hl; simpa using hl⟩
    have h0 : s.fetch[0]? = some (s.readMem s.pc) := by
      have := Laws.lenOf_pos (s.readMem s.pc)
      simp [State.fetch, State.pcPlus, wrap8, this]
    rw [h] at h0
    simpa using h0

theorem placeBytes_same (s : State) (addr : Byte) (bs : List Byte) :
    s.placeBytes addr bs = { s with mem := (s.placeBytes addr bs).mem } := by
  induction bs generalizing s addr with
  | nil => rfl
  | cons c rest ih => rw [State.placeBytes, ih]; rfl

theorem placeBytes_wf {s : State} (addr : Byte) (bs : List Byte) (h : s.mem.wf = true) :
    (s.placeBytes addr bs).mem.wf = true := by
  induction bs generalizing s addr with
  | nil => exact h
  | cons c rest ih => exact ih _ (State.writeMem_wf _ _ h)

/-! ## The cycle -/

/-- All a step that answers a next state can have done: the core was running, its map meets R63, and it ran the
instruction its fetched bytes decode to, or the no-op of an unrecognized opcode. -/
theorem step_cases (h : step s = .next t) :
    s.run = .running ∧ s.params.opcodes.wf = true ∧
    ((∃ i rest, decode s.params.opcodes s.fetch = .ok (.instr i, rest) ∧ exec i s = .next t) ∨
     (∃ ir rest, decode s.params.opcodes s.fetch = .ok (.unrecognized ir, rest) ∧ t = s.advance (lenOf ir))) := by
  unfold step cycle at h
  cases hr : s.run with
  | halted => simp [hr] at h
  | faulted f => simp [hr] at h
  | running =>
    simp only [hr] at h
    split at h
    next hw =>
      refine ⟨rfl, hw, ?_⟩
      match hd : decode s.params.opcodes s.fetch with
      | .ok (.instr i, rest) => exact .inl ⟨i, rest, rfl, by simpa [runDecoded, hd] using h⟩
      | .ok (.unrecognized ir, rest) =>
        exact .inr ⟨ir, rest, rfl, by simpa [runDecoded, hd, execUnrecognized, eq_comm] using h⟩
      | .error e => simp [runDecoded, hd] at h
    next => exact absurd h (by simp)

/-- A running core whose map meets R63 dispatches on what its fetched bytes decode to. -/
theorem step_running (hr : s.run = .running) (hw : s.params.opcodes.wf = true) :
    step s = runDecoded (decode s.params.opcodes s.fetch) s := by
  simp [step, cycle, hr, hw]

/-- Under a map that meets R63, fetched bytes always decode (R69). -/
theorem decode_fetch (hw : s.params.opcodes.wf = true) :
    (∃ i, decode s.params.opcodes s.fetch = .ok (.instr i, []) ∧
      s.params.opcodes.byteOf i.mnemonic = s.readMem s.pc) ∨
    ((∀ mn, s.params.opcodes.byteOf mn ≠ s.readMem s.pc) ∧
      decode s.params.opcodes s.fetch = .ok (.unrecognized (s.readMem s.pc), [])) := by
  obtain ⟨rest, hf, hl⟩ := fetch_cons s
  have hlt : ¬ rest.length + 1 < lenOf (s.readMem s.pc) := by omega
  have htake : rest.take (lenOf (s.readMem s.pc) - 1) = rest := List.take_of_length_le (by omega)
  have hdrop : rest.drop (lenOf (s.readMem s.pc) - 1) = [] := List.drop_of_length_le (by omega)
  rw [hf]
  simp only [decode, hlt, if_false, htake, hdrop]
  cases hfind : s.params.opcodes.find (s.readMem s.pc) with
  | none => exact .inr ⟨Laws.find_none.mp hfind, rfl⟩
  | some mn =>
    have hb := Laws.find_some hfind
    have hlen := Laws.wf_length_fits hw mn
    obtain ⟨i, hi, hm, -⟩ := Laws.build_of_length (mn := mn) (bs := rest) (by rw [hb] at hlen; omega)
    exact .inl ⟨i, by simp [hi], by rw [hm, hb]⟩

end Sys2Proof.Machine
end

