-- ==== Sys2Proof/Laws/Exec.lean ====
section
/-! SUPPORT. All an instruction can do, said once: either its register operands are in order and it has its effect, or
the first one that is not raises the fault of R205. -/

namespace Sys2Proof.Machine

/-- An ALU instruction on registers `a` and `b` wrote `f` of them to `a`. -/
def AluEffect (mn : Mnemonic) (f : Byte → Byte → Byte) (a b : Byte) (s t : State) : Prop :=
  ∃ ra rb, RegNames s a ra ∧ RegNames s b rb ∧
    t = (s.setReg ra (f (s.reg ra) (s.reg rb))).advance (s.len mn)

/-- The effect of an instruction whose register operands all name registers, as a relation between the state before
and the state after. -/
def Effect (i : Instr) (s t : State) : Prop :=
  match i with
  | .hlt => t = s.halt.advance (s.len .hlt)
  | .ret => t = (s.redirect (s.readMem (s.reg sp))).incSp
  | .push a => ∃ r, RegNames s a r ∧
      t = (s.decSp.writeMem (s.decSp.reg sp) (s.decSp.reg r)).advance (s.len .push)
  | .pop a => ∃ r, RegNames s a r ∧
      t = ((s.setReg r (s.readMem (s.reg sp))).writeMem (s.reg sp) 0).incSp.advance (s.len .pop)
  | .prn a => ∃ r, RegNames s a r ∧ t = (s.emit (.prn (s.reg r))).advance (s.len .prn)
  | .call a => ∃ r, RegNames s a r ∧
      t = (s.writeMem (s.reg sp - 1) (s.pcPlus (s.len .call))).decSp.redirect (s.decSp.reg r)
  | .jmp a => ∃ r, RegNames s a r ∧ t = s.redirect (s.reg r)
  | .jeq a => ∃ r, RegNames s a r ∧ t = if s.E then s.redirect (s.reg r) else s.advance (s.len .jeq)
  | .jne a => ∃ r, RegNames s a r ∧ t = if !s.E then s.redirect (s.reg r) else s.advance (s.len .jne)
  | .not a =>
    if s.params.notOrXorAsAnd then AluEffect .not (fun va vb => va &&& vb) a (s.readMem (s.pcPlus 2)) s t
    else ∃ r, RegNames s a r ∧ t = (s.setReg r (notByte (s.reg r))).advance (s.len .not)
  | .ldi a imm => ∃ r, RegNames s a r ∧ t = (s.setReg r imm).advance (s.len .ldi)
  | .st addr b => ∃ r, RegNames s b r ∧ t = (s.writeMem addr (s.reg r)).advance (s.len .st)
  | .add a b => AluEffect .add (fun va vb => va + vb) a b s t
  | .mul a b => AluEffect .mul mulByte a b s t
  | .mod a b => ∃ ra rb, RegNames s a ra ∧ RegNames s b rb ∧
      t = if s.reg rb = 0 then (s.emit .divZeroDiag).halt.advance (s.len .mod)
        else (s.setReg ra (modByte (s.reg ra) (s.reg rb))).advance (s.len .mod)
  | .cmp a b => ∃ ra rb, RegNames s a ra ∧ RegNames s b rb ∧
      t = (s.compare (s.reg ra) (s.reg rb)).advance (s.len .cmp)
  | .and a b => AluEffect .and (fun va vb => va &&& vb) a b s t
  | .or a b => AluEffect .or (if s.params.notOrXorAsAnd then (fun va vb => va &&& vb) else fun va vb => va ||| vb) a b s t
  | .xor a b => AluEffect .xor (if s.params.notOrXorAsAnd then (fun va vb => va &&& vb) else fun va vb => va ^^^ vb) a b s t
  | .shl a b => AluEffect .shl shlByte a b s t
  | .shr a b => AluEffect .shr shrByte a b s t

/-- An instruction that has its effect has no bad register operand. -/
theorem Effect.operands_ok {i : Instr} {s t : State} (h : Effect i s t) :
    ∀ k ∈ checkedOperands i s, ¬ RegFaults s k := by
  intro k hk
  cases i <;> simp only [Effect, AluEffect] at h <;> simp [checkedOperands, Instr.regOperands, Instr.mnemonic] at hk
  case not a =>
    split at h
    next hp =>
      obtain ⟨_, _, h1, h2, -⟩ := h
      rcases hk with rfl | ⟨-, rfl⟩
      · exact h1.not_faults
      · rw [← pcPlus_eq]; exact h2.not_faults
    next hp =>
      obtain ⟨_, h1, -⟩ := h
      rcases hk with rfl | ⟨hp', -⟩
      · exact h1.not_faults
      · exact absurd hp' hp
  all_goals first
    | (subst hk; obtain ⟨_, h1, -⟩ := h; exact h1.not_faults)
    | (obtain ⟨_, _, h1, h2, -⟩ := h
       rcases hk with rfl | rfl
       · exact h1.not_faults
       · exact h2.not_faults)

/-- The first of some operand bytes that names no register raised the fault. -/
def FaultsOn (operands : List Byte) (s t : State) : Prop :=
  ∃ before k after, operands = before ++ k :: after ∧ (∀ j ∈ before, ¬ RegFaults s j) ∧ RegFaults s k ∧
    t = s.enterFaulted (.regIndexFault k)

theorem faultsOn_head {s : State} {k : Byte} {rest : List Byte} (h : RegFaults s k) :
    FaultsOn (k :: rest) s (s.enterFaulted (.regIndexFault k)) :=
  ⟨[], k, rest, rfl, by simp, h, rfl⟩

theorem faultsOn_second {s : State} {j k : Byte} {rest : List Byte} (hj : ¬ RegFaults s j) (h : RegFaults s k) :
    FaultsOn (j :: k :: rest) s (s.enterFaulted (.regIndexFault k)) :=
  ⟨[j], k, rest, rfl, by simpa using hj, h, rfl⟩

variable {s t : State}

/-- One register operand, as an effect or a fault. -/
theorem withReg_effect {a : Byte} {k : RegIdx → State} (rest : List Byte)
    (h : (withReg a s fun r => .next (k r)) = .next t) :
    (∃ r, RegNames s a r ∧ t = k r) ∨ FaultsOn (a :: rest) s t := by
  rcases withReg_next h with ⟨r, hr, h⟩ | ⟨hf, rfl⟩
  · exact .inl ⟨r, hr, (Host.Outcome.next.inj h).symm⟩
  · exact .inr (faultsOn_head hf)

/-- Two register operands, as an effect or a fault. -/
theorem withRegs_effect {a b : Byte} {k : RegIdx → RegIdx → State} (rest : List Byte)
    (h : (withRegs a b s fun ra rb => .next (k ra rb)) = .next t) :
    (∃ ra rb, RegNames s a ra ∧ RegNames s b rb ∧ t = k ra rb) ∨ FaultsOn (a :: b :: rest) s t := by
  rcases withRegs_next h with ⟨ra, rb, hra, hrb, h⟩ | ⟨hf, rfl⟩ | ⟨hn, hf, rfl⟩
  · exact .inl ⟨ra, rb, hra, hrb, (Host.Outcome.next.inj h).symm⟩
  · exact .inr (faultsOn_head hf)
  · exact .inr (faultsOn_second hn hf)

/-- Everything an instruction that answers a next state can have done. -/
theorem exec_cases {i : Instr} (h : exec i s = .next t) : Effect i s t ∨ FaultsOn (checkedOperands i s) s t := by
  cases i with
  | hlt => exact .inl (Host.Outcome.next.inj h).symm
  | ret => exact .inl (Host.Outcome.next.inj h).symm
  | push a => exact withReg_effect _ h
  | pop a => exact withReg_effect _ h
  | prn a => exact withReg_effect _ h
  | call a => exact withReg_effect _ h
  | jmp a => exact withReg_effect _ h
  | jeq a => exact withReg_effect _ h
  | jne a => exact withReg_effect _ h
  | ldi a imm => exact withReg_effect _ h
  | st addr b => exact withReg_effect _ h
  | add a b => exact withRegs_effect _ h
  | mul a b => exact withRegs_effect _ h
  | cmp a b => exact withRegs_effect _ h
  | and a b => exact withRegs_effect _ h
  | shl a b => exact withRegs_effect _ h
  | shr a b => exact withRegs_effect _ h
  | mod a b =>
    refine withRegs_effect (a := a) (b := b) _ (.trans ?_ h)
    refine congrArg (withRegs a b s) (funext fun ra => funext fun rb => ?_)
    split <;> rfl
  | not a =>
    by_cases hp : s.params.notOrXorAsAnd = true
    · have hc : checkedOperands (.not a) s = [a, s.readMem (s.pcPlus 2)] := by
        simp [checkedOperands, Instr.regOperands, Instr.mnemonic, hp, pcPlus_eq]
      simp only [exec, execNot, hp, if_true] at h
      simp only [Effect, hp, if_true, hc]
      exact withRegs_effect _ h
    · simp only [exec, execNot, hp] at h
      simp only [Effect, hp]
      exact withReg_effect _ h
  | or a b =>
    by_cases hp : s.params.notOrXorAsAnd = true <;> simp only [exec, execOr, hp] at h <;> simp only [Effect, hp] <;>
      exact withRegs_effect _ h
  | xor a b =>
    by_cases hp : s.params.notOrXorAsAnd = true <;> simp only [exec, execXor, hp] at h <;> simp only [Effect, hp] <;>
      exact withRegs_effect _ h

end Sys2Proof.Machine
end

