-- ==== Sys2Proof/Machine/Assembler.lean ====
section
/-! DEFINITION. The two texts the spec gives for a program: the assembler syntax of R71 and R72 (D13), and the program
text of R73. No instruction's behaviour depends on either. Each answers nothing for a text its rule gives no reading of
(log entry 24). -/

namespace Sys2Proof.Machine

/-- The pieces of a text between separator characters, empty ones left out. -/
def pieces (sep : Char → Bool) (cs : List Char) : List (List Char) :=
  (cs.splitBy fun x y => sep x == sep y).filter fun p => !p.any sep

/-- The value of a decimal or hexadecimal digit below `base`. -/
def digitValue (base : Nat) (c : Char) : Option Nat :=
  let n := c.toNat
  let d := if 48 ≤ n ∧ n ≤ 57 then some (n - 48)
    else if 65 ≤ n ∧ n ≤ 70 then some (n - 55)
    else if 97 ≤ n ∧ n ≤ 102 then some (n - 87)
    else none
  d.filter fun v => decide (v < base)

/-- The value of a numeral after the digits already read (`acc`). -/
def numeralFrom (base : Nat) : Nat → List Char → Option Nat
  | acc, [] => some acc
  | acc, c :: cs => (digitValue base c).bind fun d => numeralFrom base (acc * base + d) cs

/-- A byte out of a number, where it is one. -/
def byteOfNat? (n : Nat) : Option Byte := if n < 256 then some (wrap8 n) else none

/-- An immediate or address: decimal, or hexadecimal after `0x` (R71). -/
def parseNumber : List Char → Option Byte
  | [] => none
  | '0' :: 'x' :: d :: ds => (numeralFrom 16 0 (d :: ds)).bind byteOfNat?
  | d :: ds => (numeralFrom 10 0 (d :: ds)).bind byteOfNat?

/-- A register: `R0` to `R7`, and `SP` for `R7` (R71, R72). -/
def parseRegister : List Char → Option Byte
  | ['R', d] => (digitValue 8 d).bind byteOfNat?
  | ['S', 'P'] => some 7
  | _ => none

/-- The name of a mnemonic in assembler text. -/
def mnemonicName : Mnemonic → List Char
  | .hlt => ['H', 'L', 'T']
  | .ret => ['R', 'E', 'T']
  | .push => ['P', 'U', 'S', 'H']
  | .pop => ['P', 'O', 'P']
  | .prn => ['P', 'R', 'N']
  | .call => ['C', 'A', 'L', 'L']
  | .jmp => ['J', 'M', 'P']
  | .jeq => ['J', 'E', 'Q']
  | .jne => ['J', 'N', 'E']
  | .not => ['N', 'O', 'T']
  | .ldi => ['L', 'D', 'I']
  | .st => ['S', 'T']
  | .add => ['A', 'D', 'D']
  | .mul => ['M', 'U', 'L']
  | .mod => ['M', 'O', 'D']
  | .cmp => ['C', 'M', 'P']
  | .and => ['A', 'N', 'D']
  | .or => ['O', 'R']
  | .xor => ['X', 'O', 'R']
  | .shl => ['S', 'H', 'L']
  | .shr => ['S', 'H', 'R']

/-- How each operand of a mnemonic is written, in encoding order (R68, R71). -/
def operandParsers (mn : Mnemonic) : List (List Char → Option Byte) :=
  match mn with
  | .hlt | .ret => []
  | .push | .pop | .prn | .call | .jmp | .jeq | .jne | .not => [parseRegister]
  | .ldi => [parseRegister, parseNumber]
  | .st => [parseNumber, parseRegister]
  | .add | .mul | .mod | .cmp | .and | .or | .xor | .shl | .shr => [parseRegister, parseRegister]

/-- The operand bytes of as many words as there are operands to read. -/
def parseOperands : List (List Char → Option Byte) → List (List Char) → Option (List Byte)
  | [], [] => some []
  | p :: ps, w :: ws => (p w).bind fun b => (parseOperands ps ws).map fun bs => b :: bs
  | [], _ :: _ => none
  | _ :: _, [] => none

/-- One instruction from its words: a mnemonic and its operands. -/
def parseInstr : List (List Char) → Option Instr
  | [] => none
  | name :: args =>
    (Mnemonic.all.find? fun mn => mnemonicName mn == name).bind fun mn =>
      (parseOperands (operandParsers mn) args).bind mn.build

/-- A list of answers, where all of them are there. -/
def allSome {α : Type} : List (Option α) → Option (List α)
  | [] => some []
  | none :: _ => none
  | some x :: rest => (allSome rest).map fun xs => x :: xs

/-- The instructions of an assembler text (R71): separated by `;` within a line, their words by spaces or commas. -/
def parseAssembly (text : List Char) : Option (List Instr) :=
  allSome (((pieces (fun c => c == ';' || c == '\n') text).map
    (pieces fun c => c == ' ' || c == ',')).filter (fun ws => ws != []) |>.map parseInstr)

/-- The bytes of an assembler text under an opcode map. -/
def assemble (m : OpcodeMap) (text : List Char) : Option (List Byte) :=
  (parseAssembly text).map fun is => is.flatMap (encode m)

/-- The longest prefix of a line that is a base-2 numeral (R73). -/
def binaryPrefix (line : List Char) : List Char := line.takeWhile fun c => c == '0' || c == '1'

/-- The image bytes of a program text (R73): one base-2 numeral at the start of a line, other lines skipped. A numeral
above 255 has no reading (N9). -/
def parseProgramText (text : List Char) : Option (List Byte) :=
  allSome ((((pieces (fun c => c == '\n') text).map binaryPrefix).filter fun p => p != []).map
    fun p => (numeralFrom 2 0 p).bind byteOfNat?)

end Sys2Proof.Machine
end

