-- ==== Sys2Proof/Tests/Slice0.lean ====
section
/-! SUPPORT. Tests, each on one step or one word, with expected results from spec/ (the vector's id is in the comment),
and a witness for every statement of Certificates/Slice0/Obligations.lean that has hypotheses. -/

namespace Sys2Proof.Tests

open Sys2Proof Sys2Proof.Machine

/-! ## Well-formedness: an ill-formed term for each check -/

theorem test_illformed_one_register : (Instr.push 8).wellFormed .fault = false := by decide
theorem test_illformed_first_register : (Instr.add 8 0).wellFormed .fault = false := by decide
theorem test_illformed_second_register : (Instr.add 7 0xFF).wellFormed .fault = false := by decide
theorem test_illformed_st_source : (Instr.st 0 8).wellFormed .fault = false := by decide
theorem test_wellformed_st_address : (Instr.st 0xFF 7).wellFormed .fault = true := by decide
theorem test_wellformed_ldi_immediate : (Instr.ldi 7 0xFF).wellFormed .fault = true := by decide
theorem test_wellformed_mask3 : (Instr.add 8 0xFF).wellFormed .mask3 = true := by decide

/-- R63 clause 1 broken: ADD and MUL on one byte. -/
def sharedByteMap : OpcodeMap := { OpcodeMap.default with mul := 0xA0 }
/-- R63 clause 2 broken: LDI with length 2. -/
def shortLdiMap : OpcodeMap := { OpcodeMap.default with ldi := 0x42 }
/-- R63 clause 3 broken: PUSH with length 1. -/
def shortPushMap : OpcodeMap := { OpcodeMap.default with push := 0x05 }
/-- R63 clause 4 and C1: HLT and CALL with length 3 break nothing. -/
def longMap : OpcodeMap := { OpcodeMap.default with hlt := 0x81, call := 0x90 }

theorem test_map_shared_byte : sharedByteMap.injective = false ∧ sharedByteMap.wf = false := by decide
theorem test_map_short_two_operands : shortLdiMap.lengthsFit = false ∧ shortLdiMap.wf = false := by decide
theorem test_map_short_one_operand : shortPushMap.lengthsFit = false ∧ shortPushMap.wf = false := by decide
theorem test_map_long : longMap.wf = true := by decide

/-! ## Decoding and encoding: each constructor's word, from R64's table -/

theorem test_decode_hlt : decode .default [0x01] = .ok (.instr .hlt, []) := by decide
theorem test_decode_ret : decode .default [0x11] = .ok (.instr .ret, []) := by decide
theorem test_decode_push : decode .default [0x45, 0x01] = .ok (.instr (.push 1), []) := by decide
theorem test_decode_pop : decode .default [0x46, 0x02] = .ok (.instr (.pop 2), []) := by decide
theorem test_decode_prn : decode .default [0x47, 0x05] = .ok (.instr (.prn 5), []) := by decide
theorem test_decode_call : decode .default [0x50, 0x01] = .ok (.instr (.call 1), []) := by decide
theorem test_decode_jmp : decode .default [0x54, 0x04] = .ok (.instr (.jmp 4), []) := by decide
theorem test_decode_jeq : decode .default [0x55, 0x02] = .ok (.instr (.jeq 2), []) := by decide
theorem test_decode_jne : decode .default [0x56, 0x04] = .ok (.instr (.jne 4), []) := by decide
theorem test_decode_not : decode .default [0x69, 0x02] = .ok (.instr (.not 2), []) := by decide
theorem test_decode_ldi : decode .default [0x82, 0x03, 0xFF] = .ok (.instr (.ldi 3 0xFF), []) := by decide
theorem test_decode_st : decode .default [0x84, 0x0D, 0x01] = .ok (.instr (.st 0x0D 1), []) := by decide
theorem test_decode_add : decode .default [0xA0, 0x00, 0x01] = .ok (.instr (.add 0 1), []) := by decide
theorem test_decode_mul : decode .default [0xA2, 0x00, 0x01] = .ok (.instr (.mul 0 1), []) := by decide
theorem test_decode_mod : decode .default [0xA4, 0x00, 0x01] = .ok (.instr (.mod 0 1), []) := by decide
theorem test_decode_cmp : decode .default [0xA7, 0x00, 0x01] = .ok (.instr (.cmp 0 1), []) := by decide
theorem test_decode_and : decode .default [0xA8, 0x00, 0x01] = .ok (.instr (.and 0 1), []) := by decide
theorem test_decode_or : decode .default [0xAA, 0x00, 0x01] = .ok (.instr (.or 0 1), []) := by decide
theorem test_decode_xor : decode .default [0xAB, 0x00, 0x01] = .ok (.instr (.xor 0 1), []) := by decide
theorem test_decode_shl : decode .default [0xAC, 0x00, 0x01] = .ok (.instr (.shl 0 1), []) := by decide
theorem test_decode_shr : decode .default [0xAD, 0x00, 0x01] = .ok (.instr (.shr 0 1), []) := by decide

/-- R62, D2: 0xC2 differs from LDI's 0x82 in bit 6 alone and is unrecognized; its length is 3 (R61, bits 7:6 = 11). -/
theorem test_decode_full_byte : decode .default [0xC2, 0, 0, 7] = .ok (.unrecognized 0xC2, [7]) := by decide
theorem test_decode_truncated : decode .default [0x82, 0x03] = .error .truncated := by decide
theorem test_encode_st : encode .default (.st 0x0D 1) = [0x84, 0x0D, 0x01] := by decide
/-- D19: under a map that gives CALL length 3 the byte after its operand is skipped. -/
theorem test_encode_long_call : encode longMap (.call 2) = [0x90, 2, 0] := by decide
/-- R69: 235 of the 256 bytes are unrecognized under the default map. -/
theorem test_unrecognized_count :
    ((List.range 256).filter fun k => (OpcodeMap.default.find (wrap8 k)).isNone).length = 235 := by decide +kernel
theorem test_table_word : decodeTableWord 24 0x0100A0 = some (.add 0 1) := by decide
theorem test_table_word_opcode_only : decodeTableWord 8 0xA0 = some (.add 0 0) := by decide
theorem test_fetch_word : (State.reset.withFetchWord 24 0x080382).fetch = [0x82, 3, 8] := by decide

/-! ## One step on a small state -/

/-- The reset state with some registers, at an address. -/
def at_ (pc : Byte) (r0 r1 r2 r3 r7 : Byte) : State :=
  { State.reset with regs := #v[r0, r1, r2, r3, 0, 0, 0, r7], pc := pc }

/-- A view of the state after the instruction whose bytes are placed at `pc` is fetched, decoded and run: a step of a
running core but for the check of its map (`test_step_checks_the_map`). -/
def after {α : Type} (s : State) (bytes : List Byte) (view : State → α) : Option α :=
  match runDecoded (decode s.params.opcodes (s.placeBytes s.pc bytes).fetch) (s.placeBytes s.pc bytes) with
  | .next t => some (view t)
  | .fault _ => none
  | .refused _ => none

theorem test_step_checks_the_map :
    step { State.reset with params := { Params.default with opcodes := sharedByteMap } } = .refused .illFormedOpcodeMap ∧
    step State.reset = .next { State.reset with pc := 1 } ∧ step { State.reset with run := .halted } = .fault .halted :=
  ⟨rfl, rfl, rfl⟩

/-- V-LDI-3. -/
theorem test_ldi_wraps : after (at_ 0xFE 0 0 0 0 0xF4) [0x82, 0x00, 0x2A] (fun t => (t.reg 0, t.pc)) = some (0x2A, 0x01) := by decide
/-- V-LDI-4. -/
theorem test_ldi_faults : after (at_ 0 0 0 0 0 0xF4) [0x82, 0x08, 0x05] (fun t => (t.run, t.pc)) = some (.faulted (.regIndexFault 8), 0) := by decide
/-- V-PRN-2. -/
theorem test_prn : after (at_ 0 0xFF 0 0 0 0xF4) [0x47, 0x00] (fun t => (t.outText, t.pc)) = some (['2', '5', '5', '\n'], 2) := by decide
/-- V-HLT-2. -/
theorem test_hlt_top : after (at_ 0xFF 0 0 0 0 0xF4) [0x01] (fun t => (t.run, t.pc)) = some (.halted, 0) := by decide
/-- V-ADD-2. -/
theorem test_add_wraps : after (at_ 0 250 10 0 0 0xF4) [0xA0, 0, 1] (fun t => (t.reg 0, t.pc)) = some (4, 3) := by decide
/-- V-SAME-1. -/
theorem test_add_same : after (at_ 0 0 0 0 0x90 0xF4) [0xA0, 3, 3] (fun t => t.reg 3) = some 0x20 := by decide
/-- V-AND-1. -/
theorem test_and : after (at_ 0 0xF0 0x3C 0 0 0xF4) [0xA8, 0, 1] (fun t => t.reg 0) = some 0x30 := by decide
/-- V-MUL-4. -/
theorem test_mul : after (at_ 0 200 2 0 0 0xF4) [0xA2, 0, 1] (fun t => t.reg 0) = some 144 := by decide
/-- V-MUL-5. -/
theorem test_mul_top : after (at_ 0 255 255 0 0 0xF4) [0xA2, 0, 1] (fun t => t.reg 0) = some 1 := by decide
/-- V-MOD-2. -/
theorem test_mod : after (at_ 0 5 17 0 0 0xF4) [0xA4, 0, 1] (fun t => t.reg 0) = some 5 := by decide
/-- V-MOD-5. -/
theorem test_mod_zero : after (at_ 0 17 0 0 0 0xF4) [0xA4, 0, 1] (fun t => (t.reg 0, t.out, t.run)) = some (17, [.divZeroDiag], .halted) := by decide
/-- V-FAULT-1. -/
theorem test_mod_faults_first : after (at_ 0 5 0 0 0 0xF4) [0xA4, 0, 9] (fun t => (t.run, t.out, t.pc)) = some (.faulted (.regIndexFault 9), [], 0) := by decide
/-- V-OR-1. -/
theorem test_or : after (at_ 0 0xF0 0x0C 0 0 0xF4) [0xAA, 0, 1] (fun t => t.reg 0) = some 0xFC := by decide
/-- V-XOR-1. -/
theorem test_xor : after (at_ 0 0xFF 0x0F 0 0 0xF4) [0xAB, 0, 1] (fun t => t.reg 0) = some 0xF0 := by decide
/-- V-SHL-2. -/
theorem test_shl : after (at_ 0 0x81 1 0 0 0xF4) [0xAC, 0, 1] (fun t => t.reg 0) = some 0x02 := by decide
/-- V-SHL-4. -/
theorem test_shl_eight : after (at_ 0 1 8 0 0 0xF4) [0xAC, 0, 1] (fun t => t.reg 0) = some 0 := by decide
/-- V-SHR-2. -/
theorem test_shr : after (at_ 0 0x80 7 0 0 0xF4) [0xAD, 0, 1] (fun t => t.reg 0) = some 1 := by decide
/-- V-SHR-3. -/
theorem test_shr_eight : after (at_ 0 0xFF 8 0 0 0xF4) [0xAD, 0, 1] (fun t => t.reg 0) = some 0 := by decide
/-- V-NOT-3. -/
theorem test_not : after (at_ 0 0 0 0xA5 0 0xF4) [0x69, 2] (fun t => (t.reg 2, t.pc)) = some (0x5A, 2) := by decide
/-- V-CMP-4. -/
theorem test_cmp_unsigned : after (at_ 0 0x80 0x7F 0 0 0xF4) [0xA7, 0, 1] (fun t => (t.E, t.G, t.L)) = some (false, true, false) := by decide
/-- V-CMP-5. -/
theorem test_cmp_sticky : after { at_ 0 7 3 0 0 0xF4 with E := true } [0xA7, 0, 1] (fun t => (t.E, t.G, t.L)) = some (true, true, false) := by decide

/-- Compatibility mode (P2). -/
def compat (s : State) : State := { s with params := { s.params with notOrXorAsAnd := true } }
/-- `REG_INDEX_MODE = mask3` (P3). -/
def mask3 (s : State) : State := { s with params := { s.params with regIndexMode := .mask3 } }

/-- V-COMPAT-1. -/
theorem test_compat_or : after (compat (at_ 0 0xF0 0x0C 0 0 0xF4)) [0xAA, 0, 1] (fun t => t.reg 0) = some 0 := by decide
/-- V-COMPAT-2. -/
theorem test_compat_xor : after (compat (at_ 0 0xFF 0x0F 0 0 0xF4)) [0xAB, 0, 1] (fun t => t.reg 0) = some 0x0F := by decide
/-- V-COMPAT-3. -/
theorem test_compat_not : after (compat (at_ 0 0x0F 0x3C 0 0 0xF4)) [0x69, 0, 1] (fun t => (t.reg 0, t.pc)) = some (0x0C, 2) := by decide
/-- V-COMPAT-4. -/
theorem test_compat_not_faults : after (compat (at_ 0 0 0 0 0 0xF4)) [0x69, 0, 0x82] (fun t => t.run) = some (.faulted (.regIndexFault 0x82)) := by decide
/-- R204: under `mask3` the operand byte 9 names register 1. -/
theorem test_mask3 : after (mask3 (at_ 0 5 6 0 0 0xF4)) [0xA0, 8, 9] (fun t => t.reg 0) = some 11 := by decide

/-- V-PUSH-2. -/
theorem test_push_wraps : after (at_ 8 0 9 0 0 0) [0x45, 1] (fun t => (t.reg 7, t.readMem 0xFF, t.pc)) = some (0xFF, 9, 10) := by decide
/-- V-PUSH-3. -/
theorem test_push_sp : after (at_ 0 0 0 0 0 0xF4) [0x45, 7] (fun t => (t.reg 7, t.readMem 0xF3)) = some (0xF3, 0xF3) := by decide
/-- V-POP-2. -/
theorem test_pop_wraps : after ((at_ 8 0 0 0 0 0xFF).writeMem 0xFF 7) [0x46, 2] (fun t => (t.reg 2, t.readMem 0xFF, t.reg 7)) = some (7, 0, 0) := by decide
/-- V-POP-4. -/
theorem test_pop_sp : after ((at_ 0 0 0 0 0 0xF4).writeMem 0xF4 0x10) [0x46, 7] (fun t => (t.readMem 0xF4, t.reg 7)) = some (0, 0x11) := by decide
/-- V-CALL-2. -/
theorem test_call_wraps : after (at_ 0xFF 0 0x40 0 0 0xF4) [0x50, 1] (fun t => (t.readMem 0xF3, t.pc)) = some (1, 0x40) := by decide
/-- V-CALL-3. -/
theorem test_call_sp : after (at_ 0x10 0 0 0 0 0xF4) [0x50, 7] (fun t => (t.readMem 0xF3, t.reg 7, t.pc)) = some (0x12, 0xF3, 0xF3) := by decide
/-- V-RET-1. -/
theorem test_ret : after ((at_ 0 0 0 0 0 0xF3).writeMem 0xF3 8) [0x11] (fun t => (t.pc, t.reg 7, t.readMem 0xF3)) = some (8, 0xF4, 8) := by decide
/-- V-RET-3. -/
theorem test_ret_wraps : after ((at_ 0 0 0 0 0 0xFF).writeMem 0xFF 0x33) [0x11] (fun t => (t.pc, t.reg 7)) = some (0x33, 0) := by decide
/-- V-JMP-2. -/
theorem test_jmp : after (at_ 0x14 0 0 0x14 0 0xF4) [0x54, 2] (fun t => t.pc) = some 0x14 := by decide
/-- V-JEQ-1. -/
theorem test_jeq : after { at_ 0x12 0 0 0x17 0 0xF4 with E := true } [0x55, 2] (fun t => t.pc) = some 0x17 := by decide
/-- V-JEQ-3. -/
theorem test_jeq_faults : after (at_ 0x12 0 0 0 0 0xF4) [0x55, 8] (fun t => (t.run, t.pc)) = some (.faulted (.regIndexFault 8), 0x12) := by decide
/-- V-JNE-1. -/
theorem test_jne : after (at_ 0x14 0 0 0x0C 0 0xF4) [0x56, 2] (fun t => t.pc) = some 0x0C := by decide
/-- V-JNE-2. -/
theorem test_jne_not_taken : after { at_ 0x14 0 0 0x0C 0 0xF4 with E := true, L := true } [0x56, 2] (fun t => t.pc) = some 0x16 := by decide
/-- V-ST-3. -/
theorem test_st_address : after (at_ 0x20 0 0x11 0 0 0xF4) [0x84, 5, 1] (fun t => (t.readMem 5, t.readMem 0, t.pc)) = some (0x11, 0, 0x23) := by decide
/-- V-ST-4. -/
theorem test_st_faults : after (at_ 0 0 0 0 0 0xF4) [0x84, 0x10, 8] (fun t => (t.run, t.readMem 0x10)) = some (.faulted (.regIndexFault 8), 0) := by decide
/-- V-UNK-5. -/
theorem test_unrecognized_sub : after (at_ 0 9 1 0 0 0xF4) [0xA1, 0, 1] (fun t => (t.regs, t.pc)) = some (#v[9, 1, 0, 0, 0, 0, 0, 0xF4], 3) := by decide
/-- V-UNK-6. -/
theorem test_unrecognized_wraps : after (at_ 0xFE 0 0 0 0 0xF4) [0xFF] (fun t => t.pc) = some 1 := by decide

/-! ## The texts of a program -/

/-- R71's example and its image in P1 of 95_test_vectors.md. -/
theorem test_assembly : assemble .default "LDI R0 8; LDI R1 9; ADD R0 R1; PRN R0; HLT".toList =
    some [0x82, 0, 8, 0x82, 1, 9, 0xA0, 0, 1, 0x47, 0, 1] := by decide
/-- R71: `SP` is `R7`, an operand may be hexadecimal, `ST addr, Rb`. -/
theorem test_assembly_forms : parseAssembly "LDI SP, 0x80; ST 0x0D, R0".toList = some [.ldi 7 0x80, .st 0x0D 0] := by decide
theorem test_assembly_refuses : parseAssembly "PUSH R8".toList = none := by decide
/-- R73: lines that do not begin with a numeral are skipped. -/
theorem test_program_text : parseProgramText "10000010 # LDI R0,8\n00000000\n\n# end\n1\n".toList = some [0x82, 0, 1] := by decide

/-! ## Witnesses: the hypotheses of each statement, met together -/

/-- Registers 5, 3, 0 (a zero divisor) and 0x80, at 0x10. -/
def w : State := at_ 0x10 5 3 0 0x80 0xF4

theorem names_top : RegNames w 7 7 := ⟨.inl (by decide), rfl⟩
theorem names_0 : RegNames w 0 0 := ⟨.inl (by decide), rfl⟩
theorem names_1 : RegNames w 1 1 := ⟨.inl (by decide), rfl⟩
theorem names_2 : RegNames w 2 2 := ⟨.inl (by decide), rfl⟩
theorem names_3 : RegNames w 3 3 := ⟨.inl (by decide), rfl⟩
theorem names_mask3 : RegNames (mask3 w) 0xFF 7 := ⟨.inr rfl, rfl⟩
theorem faults_8 : RegFaults w 8 := ⟨by decide, rfl⟩
theorem faults_top : RegFaults w 0xFF := ⟨by decide, rfl⟩
theorem not_names_8 {r : RegIdx} : ¬ RegNames w 8 r := fun h => absurd h.1 (by decide)
theorem not_faults_7 : ¬ RegFaults w 7 := fun h => absurd h.1 (by decide)
theorem w_wf : w.params.opcodes.wf = true := by decide

/-- The hypotheses on the operands of a one-register statement, at the ends of each clause's range: 7 names a register
and 8 faults; under `mask3` 0xFF names one. With `w_wf` they are those of LdiLoadsTheImmediate, PrnEmitsTheRegister,
PrnAddsADecimalLineToTheText, PushStoresBelowTheStackPointer, PopLoadsAndClearsTheTop, CallPushesTheReturnAddress,
CallThenRetReturnsAfterTheCall, JmpSetsThePc, JeqJumpsWhenEIsSet, JneJumpsWhenEIsClear and StStoresAtTheOperandAddress. -/
theorem witness_one_register :
    w.params.opcodes.wf = true ∧ RegNames w 7 7 ∧ RegNames w 0 0 ∧ RegFaults w 8 ∧ RegFaults w 0xFF ∧
    RegNames (mask3 w) 0xFF 7 := ⟨w_wf, names_top, names_0, faults_8, faults_top, names_mask3⟩

/-- Those of a two-register statement: AddWritesTheSumModulo256, AndWritesTheConjunction, OrWritesTheDisjunction,
XorWritesTheExclusiveOr, MulWritesTheLowByteOfTheProduct, ShlMultipliesByAPowerOfTwo, ShrDividesByAPowerOfTwo. -/
theorem witness_two_registers :
    w.params.opcodes.wf = true ∧ w.params.notOrXorAsAnd = false ∧ RegNames w 0 0 ∧ RegNames w 7 7 ∧ RegFaults w 8 ∧
    ¬ RegFaults w 7 := ⟨w_wf, rfl, names_0, names_top, faults_8, not_faults_7⟩

theorem witness_EveryStepKeepsTheInvariant : Inv State.reset ∧ ∃ t, step State.reset = .next t :=
  ⟨⟨rfl, by decide⟩, _, rfl⟩
theorem witness_BootPlacesTheImage :
    Params.default.opcodes.wf = true ∧ (List.replicate 256 (1 : Byte)).length ≤ 256 :=
  ⟨by decide, by rw [List.length_replicate]⟩
theorem witness_BadMapsAndLongImagesAreRefused :
    sharedByteMap.wf = false ∧ Params.default.opcodes.wf = true ∧ 256 < (List.replicate 257 (1 : Byte)).length ∧
    ({ w with params := { Params.default with opcodes := sharedByteMap } } : State).run = .running :=
  ⟨by decide, by decide, by rw [List.length_replicate]; decide, rfl⟩
theorem witness_RunningCoreAlwaysSteps : w.run = .running ∧ w.params.opcodes.wf = true := by decide
theorem witness_StoppedCoreTakesNoStep : ({ w with run := .halted } : State).run ≠ .running := by decide
theorem witness_StoppedCoreNamesItsState :
    ({ w with run := .halted } : State).run = .halted ∧
    ({ w with run := .faulted (.regIndexFault 8) } : State).run = .faulted (.regIndexFault 8) := by decide
theorem witness_StepRunsTheDecodedInstruction :
    (w.placeBytes w.pc [0xA0, 0, 1]).run = .running ∧ (w.placeBytes w.pc [0xA0, 0, 1]).params.opcodes.wf = true ∧
    decode OpcodeMap.default (w.placeBytes w.pc [0xA0, 0, 1]).fetch = .ok (.instr (.add 0 1), []) := by decide
theorem witness_FetchReadsAsManyBytesAsTheTopBitsSay :
    128 ≤ ((w.writeMem w.pc 0x80).readMem w.pc).toNat ∧ 64 ≤ ((w.writeMem w.pc 0x40).readMem w.pc).toNat ∧
    ((w.writeMem w.pc 0x7F).readMem w.pc).toNat < 128 ∧ ((w.writeMem w.pc 0x3F).readMem w.pc).toNat < 64 := by decide
theorem witness_UnrecognizedByteIsANoOp :
    w.run = .running ∧ w.params.opcodes.wf = true ∧ ∀ mn, w.params.opcodes.byteOf mn ≠ w.readMem w.pc :=
  ⟨rfl, by decide, fun mn => by cases mn <;> decide⟩
theorem witness_DecodingAnEncodedInstructionGivesItBack : OpcodeMap.default.wf = true ∧ longMap.wf = true := by decide
theorem witness_DefaultDecodingIsExact :
    decode .default [0xAD, 0xFF, 0xFE, 3] = .ok (.instr (.shr 0xFF 0xFE), [3]) := by decide
theorem witness_OnlyCmpWritesFlags :
    (Instr.add 0 1).mnemonic ≠ .cmp ∧ ∃ t, exec (.add 0 1) w = .next t := ⟨by decide, _, rfl⟩
theorem witness_ComparisonFlagsAreSticky :
    (∃ t, step { w with E := true } = .next t) ∧ (∃ t, step { w with G := true } = .next t) ∧
    ∃ t, step { w with L := true } = .next t := ⟨⟨_, rfl⟩, ⟨_, rfl⟩, ⟨_, rfl⟩⟩
theorem witness_OnlyJeqAndJneReadAFlagAndOnlyE :
    (Instr.prn 0).mnemonic ≠ .cmp ∧ (Instr.prn 0).mnemonic ≠ .jeq ∧ (Instr.prn 0).mnemonic ≠ .jne ∧
    ∃ t, exec (.prn 0) w = .next t := ⟨by decide, by decide, by decide, _, rfl⟩
theorem witness_MemoryChangesOnlyWhereStored :
    (∃ t, exec (.st 0x20 0) w = .next t) ∧ storedAt (.st 0x20 0) w ≠ some 0x21 ∧ storedAt (.cmp 0 1) w ≠ some 0x20 :=
  ⟨⟨_, rfl⟩, by decide, by decide⟩
theorem witness_RegistersChangeOnlyWhereWritten :
    (∃ t, exec (.push 0) w = .next t) ∧ ¬ MayWriteReg (.push 0) w 6 :=
  ⟨⟨_, rfl⟩, by simp only [MayWriteReg]; decide⟩
theorem witness_OutputOnlyGrowsByPrnAndModByZero :
    (∃ t, exec (.prn 7) w = .next t) ∧ RegNames w 7 7 ∧ (∃ t, exec (.mod 0 2) w = .next t) ∧ RegNames w 0 0 ∧
    RegNames w 2 2 ∧ w.regs[(2 : RegIdx)] = 0 ∧ (∃ t, exec .hlt w = .next t) ∧ ¬ Emits .hlt w :=
  ⟨⟨_, rfl⟩, names_top, ⟨_, rfl⟩, names_0, names_2, by decide, ⟨_, rfl⟩, id⟩
/-- Its third clause for the forms of PRN and MOD that emit nothing: a nonzero divisor, and a faulting operand. -/
theorem witness_OutputOnlyGrows_silent_forms :
    (∃ t, exec (.mod 0 1) w = .next t) ∧ ¬ Emits (.mod 0 1) w ∧ (∃ t, exec (.prn 8) w = .next t) ∧ ¬ Emits (.prn 8) w ∧
    (∃ t, exec (.mod 8 2) w = .next t) ∧ ¬ Emits (.mod 8 2) w :=
  ⟨⟨_, rfl⟩, fun ⟨_, rb, _, h, z⟩ => by
      have : rb = 1 := Fin.ext h.2
      subst this; exact absurd z (by decide),
    ⟨_, rfl⟩, fun ⟨_, h⟩ => not_names_8 h, ⟨_, rfl⟩, fun ⟨_, _, h, _⟩ => not_names_8 h⟩
theorem witness_OutputIsNeverReadBack : ∃ t, exec (.prn 0) w = .next t := ⟨_, rfl⟩
theorem witness_ParametersNeverChange : ∃ t, step w = .next t := ⟨_, rfl⟩
theorem witness_PcAdvancesByTheLength :
    (∃ t, exec (.jeq 7) w = .next t) ∧ ¬ redirects (.jeq 7) w ∧ ∀ k ∈ checkedOperands (.jeq 7) w, ¬ RegFaults w k :=
  ⟨⟨_, rfl⟩, by simp only [redirects]; decide, fun k hk => by
    have : k = 7 := by simpa [checkedOperands, Instr.regOperands, Instr.mnemonic] using hk
    exact this ▸ not_faults_7⟩
theorem witness_FirstBadRegisterOperandFaults :
    checkedOperands (.add 7 8) w = [7] ++ 8 :: [] ∧ (∀ j ∈ ([7] : List Byte), ¬ RegFaults w j) ∧ RegFaults w 8 :=
  ⟨rfl, fun j hj => by rw [List.mem_singleton.mp hj]; exact not_faults_7, faults_8⟩
theorem witness_OnlyABadRegisterOperandFaults :
    w.run = .running ∧ ∃ t, exec (.jmp 8) w = .next t ∧ t.run = .faulted (.regIndexFault 8) := ⟨rfl, _, rfl, rfl⟩
theorem witness_OnlyHltAndModByZeroHalt :
    w.run = .running ∧ (∃ t, exec .hlt w = .next t ∧ t.run = .halted) ∧
    ∃ t, exec (.mod 0 2) w = .next t ∧ t.run = .halted := ⟨rfl, ⟨_, rfl, rfl⟩, ⟨_, rfl, rfl⟩⟩
theorem witness_WellFormedInstructionsNeverFault :
    (Instr.add 7 0).wellFormed w.params.regIndexMode = true ∧ w.params.notOrXorAsAnd = false ∧ w.run = .running := by
  decide
theorem witness_StoreIsSeenByTheNextFetch :
    RegNames w 3 3 ∧ ∃ t, exec (.st 0x13 3) w = .next t ∧ t.pc = 0x13 := ⟨names_3, _, rfl, by decide⟩
theorem witness_HaltsTakeTheGenericAdvance :
    (∃ t, exec .hlt w = .next t) ∧ RegNames w 0 0 ∧ RegNames w 2 2 ∧ w.regs[(2 : RegIdx)] = 0 ∧
    ∃ t, exec (.mod 0 2) w = .next t := ⟨⟨_, rfl⟩, names_0, names_2, by decide, _, rfl⟩
theorem witness_NotWritesTheComplement :
    w.params.notOrXorAsAnd = false ∧ RegNames w 7 7 ∧ RegFaults w 8 := ⟨rfl, names_top, faults_8⟩
theorem witness_CompatibilityModeMakesNotOrXorAnd :
    (compat w).params.notOrXorAsAnd = true ∧ RegNames (compat w) 0 0 ∧ RegNames (compat w) 0 0 ∧
    (compat w).readMem (wrap8 ((compat w).pc.toNat + 2)) = 0 := ⟨rfl, names_0, names_0, by decide⟩
theorem witness_CmpSetsExactlyOneFlag :
    w.params.opcodes.wf = true ∧ RegNames w 0 0 ∧ RegNames w 1 1 ∧ RegNames w 3 3 ∧
    w.regs[(0 : RegIdx)].toNat = w.regs[(0 : RegIdx)].toNat ∧
    w.regs[(1 : RegIdx)].toNat < w.regs[(0 : RegIdx)].toNat ∧
    w.regs[(0 : RegIdx)].toNat < w.regs[(3 : RegIdx)].toNat :=
  ⟨w_wf, names_0, names_1, names_3, rfl, by decide, by decide⟩
theorem witness_ModWritesTheRemainder :
    w.params.opcodes.wf = true ∧ RegNames w 0 0 ∧ RegNames w 1 1 ∧ w.regs[(1 : RegIdx)] ≠ 0 :=
  ⟨w_wf, names_0, names_1, by decide⟩
theorem witness_ModByZeroHaltsWithTheDiagnostic :
    RegNames w 0 0 ∧ RegNames w 2 2 ∧ w.regs[(2 : RegIdx)] = 0 := ⟨names_0, names_2, by decide⟩
theorem witness_PopLoadsAndClearsTheTop :
    RegNames w 0 0 ∧ (0 : RegIdx) ≠ sp ∧ RegNames w 7 sp := ⟨names_0, by decide, names_top⟩
theorem witness_PushThenPopMovesTheValue :
    RegNames w 1 1 ∧ RegNames w 2 2 ∧ (1 : RegIdx) ≠ sp ∧ (2 : RegIdx) ≠ sp := ⟨names_1, names_2, by decide, by decide⟩

end Sys2Proof.Tests
end

/-! The statements of 00_scope.md (O4, O23, O12, O33): the image that a run begins with, the parameters, what the
host reads of a core, and the text PRN makes. -/

namespace Sys2Proof.Machine

/-! ## Placing an image (R7) -/

/-- What placed bytes read as: at distance `k` from `addr` the byte number `k` where there is one, else memory as it was.
The bytes do not overlap, since there are at most 256 of them. -/
theorem placeBytes_readMem (s : State) (addr a : Byte) (bs : List Byte) (h : bs.length ≤ 256) :
    (s.placeBytes addr bs).readMem a = bs[(a - addr).toNat]?.getD (s.readMem a) := by
  induction bs generalizing s addr with
  | nil => rfl
  | cons c rest ih =>
    rw [List.length_cons] at h
    rw [State.placeBytes, ih _ _ (by omega)]
    by_cases e : a = addr
    · subst e
      have past : rest.length ≤ (a - (a + 1)).toNat := by bv_omega
      rw [List.getElem?_eq_none past]
      simp
    · have next : (a - addr).toNat = (a - (addr + 1)).toNat + 1 := by bv_omega
      simp [next, State.readMem_writeMem_other _ _ _ _ e]

/-- An image placed from address 0 on, by the address in numbers. -/
theorem placeBytes_zero_readMem (s : State) {bs : List Byte} {k : Nat} (h : bs.length ≤ 256) (hk : k < 256) :
    (s.placeBytes 0 bs).readMem (wrap8 k) = bs[k]?.getD (s.readMem (wrap8 k)) := by
  have : (wrap8 k - 0).toNat = k := by simp [wrap8, Nat.mod_eq_of_lt hk]
  rw [placeBytes_readMem _ _ _ _ h, this]

/-- `boot` accepts a well-formed map with an image that fits. -/
theorem boot_eq_next {p : Params} {image : List Byte} (hw : p.opcodes.wf = true) (hl : image.length ≤ 256) :
    boot p image = .next ({ State.reset with params := p }.placeBytes 0 image) := by
  simp [boot, hw, Nat.not_lt.mpr hl]

/-- Settles O4: the placed bytes are read back by `placeBytes_zero_readMem`, over a memory that reads 0 everywhere. -/
theorem bootPlacesTheImage : Obligations.BootPlacesTheImage := by
  intro p image hw hl
  have same := placeBytes_same { State.reset with params := p } 0 image
  refine ⟨_, boot_eq_next hw hl, fun k hk => ?_, fun k hk hk' => ?_, same, placeBytes_wf 0 image reset_mem_wf, ?_⟩
  · rw [placeBytes_zero_readMem _ hl (by omega), List.getElem?_eq_getElem hk, Option.getD_some]
  · rw [placeBytes_zero_readMem _ hl hk', List.getElem?_eq_none hk]
    rfl
  · rw [same]
    exact hw

/-! ## The parameters (R11) -/

theorem AluEffect.params_eq {mn : Mnemonic} {f : Byte → Byte → Byte} {a b : Byte} {s t : State}
    (h : AluEffect mn f a b s t) : t.params = s.params := by
  obtain ⟨_, _, _, _, rfl⟩ := h
  rfl

theorem Effect.params_eq {i : Instr} {s t : State} (h : Effect i s t) : t.params = s.params := by
  cases i with
  | hlt | ret =>
    subst h
    rfl
  | push | pop | prn | call | jmp | ldi | st =>
    obtain ⟨_, _, rfl⟩ := h
    rfl
  | jeq | jne =>
    obtain ⟨_, _, rfl⟩ := h
    split <;> rfl
  | mod =>
    obtain ⟨_, _, _, _, rfl⟩ := h
    split <;> rfl
  | cmp =>
    obtain ⟨_, _, _, _, rfl⟩ := h
    rw [State.advance_params, State.compare_params]
  | add | mul | and | or | xor | shl | shr => exact AluEffect.params_eq h
  | not =>
    simp only [Effect] at h
    split at h
    · exact h.params_eq
    · obtain ⟨_, _, rfl⟩ := h
      rfl

theorem FaultsOn.params_eq {operands : List Byte} {s t : State} (h : FaultsOn operands s t) :
    t.params = s.params := by
  obtain ⟨_, _, _, _, _, _, rfl⟩ := h
  rfl

theorem exec_params_eq {i : Instr} {s t : State} (h : exec i s = .next t) : t.params = s.params :=
  (exec_cases h).elim Effect.params_eq FaultsOn.params_eq

/-- Settles O23: a step executes an instruction or advances past an unrecognized byte. -/
theorem parametersNeverChange : Obligations.ParametersNeverChange := by
  intro s t h
  obtain ⟨_, _, ⟨_, _, _, hexec⟩ | ⟨_, _, _, rfl⟩⟩ := step_cases h
  · exact exec_params_eq hexec
  · rfl

/-! ## What the host reads (R6, R9) -/

theorem State.readout_mem_length (s : State) : s.readout.mem.length = 256 := by
  simp [State.readout]

theorem State.readout_mem_getElem? (s : State) (addr : Byte) :
    s.readout.mem[addr.toNat]? = some (s.readMem addr) := by
  simp [State.readout, State.readMem, List.getElem?_range addr.isLt]

theorem State.status_eq_running_iff (s : State) : s.status = .running ↔ s.run = .running := by
  unfold State.status
  cases s.run <;> simp

theorem State.status_eq_halted_iff (s : State) : s.status = .halted ↔ s.run = .halted := by
  unfold State.status
  cases s.run <;> simp

theorem State.status_eq_faulted_iff (s : State) : s.status = .faulted ↔ ∃ f, s.run = .faulted f := by
  unfold State.status
  cases s.run <;> simp

/-- Settles O12: five fields are the state's own, memory and the run state are read by the lemmas above. -/
theorem readoutAndStatusShowTheState : Obligations.ReadoutAndStatusShowTheState := fun s =>
  ⟨rfl, rfl, rfl, rfl, rfl, s.readout_mem_length, s.readout_mem_getElem?, s.status_eq_running_iff,
    s.status_eq_halted_iff, s.status_eq_faulted_iff⟩

/-! ## The host's text (R8) -/

@[simp] theorem State.emit_outText (s : State) (ev : OutEvent) : (s.emit ev).outText = s.outText ++ ev.text := by
  simp [State.outText]

@[simp] theorem State.advance_outText (s : State) (n : Nat) : (s.advance n).outText = s.outText := rfl

theorem exec_prn_names {s : State} {a : Byte} {r : RegIdx} (h : RegNames s a r) :
    exec (.prn a) s = .next ((s.emit (.prn (s.reg r))).advance (s.len .prn)) :=
  withReg_names h _

/-- Settles O33: PRN emits one event, whose text is the numeral and the newline. -/
theorem prnAddsADecimalLineToTheText : Obligations.PrnAddsADecimalLineToTheText := by
  intro s a r h
  refine ⟨_, exec_prn_names h, ?_⟩
  rw [State.advance_outText, State.emit_outText]
  rfl

end Sys2Proof.Machine

/-! The statements of 10_state.md (O1, O3, O8, O16, O18, O20, O21, O24, O27, O35): what an instruction may change in
the state, what it reads of the flags, and what every step keeps. -/

namespace Sys2Proof.Machine

/-! ## What an instruction may update -/

/-- The instructions that enter `halted` (R29): HLT, and MOD with a divisor register that holds 0. -/
def Halts (i : Instr) (s : State) : Prop :=
  i = .hlt ∨ ∃ a b rb, i = .mod a b ∧ RegNames s b rb ∧ s.regs[rb] = 0

/-- The state is made from `s` by updates that instruction `i` may make there, each with the rule that allows it. The
frame rules are inductions over it: a field changes only by the updates of that field. -/
inductive Updates (i : Instr) (s : State) : State → Prop where
  | start : Updates i s s
  | setReg {u : State} {r : RegIdx} (v : Byte) (h : Updates i s u) (hr : MayWriteReg i s r) :
      Updates i s (u.setReg r v)
  | writeMem {u : State} {addr : Byte} (v : Byte) (h : Updates i s u) (ha : storedAt i s = some addr) :
      Updates i s (u.writeMem addr v)
  | compare {u : State} (va vb : Byte) (h : Updates i s u) (hi : i.mnemonic = .cmp) : Updates i s (u.compare va vb)
  | emit {u : State} (ev : OutEvent) (h : Updates i s u) (he : Emits i s) : Updates i s (u.emit ev)
  | halt {u : State} (h : Updates i s u) (hh : Halts i s) : Updates i s u.halt
  | fault {u : State} {k : Byte} (h : Updates i s u) (hk : k ∈ checkedOperands i s) (hf : RegFaults s k) :
      Updates i s (u.enterFaulted (.regIndexFault k))
  | advance {u : State} (n : Nat) (h : Updates i s u) : Updates i s (u.advance n)
  | redirect {u : State} (target : Byte) (h : Updates i s u) : Updates i s (u.redirect target)

section Updates
variable {i : Instr} {s t : State}

theorem AluEffect.updates {mn : Mnemonic} {f : Byte → Byte → Byte} {a b : Byte} (h : AluEffect mn f a b s t)
    (hr : ∀ r, RegNames s a r → MayWriteReg i s r) : Updates i s t := by
  obtain ⟨ra, _, ha, _, rfl⟩ := h
  exact .advance _ (.setReg _ .start (hr ra ha))

theorem Effect.updates (h : Effect i s t) : Updates i s t := by
  cases i with
  | hlt =>
    subst h
    exact .advance _ (.halt .start (.inl rfl))
  | ret =>
    subst h
    exact .setReg _ (.redirect _ .start) rfl
  | push a =>
    obtain ⟨r, _, rfl⟩ := h
    have slot : storedAt (.push a) s = some (s.decSp.reg sp) := by simp [storedAt, belowSp_eq, State.decSp_reg]
    exact .advance _ (.writeMem _ (.setReg _ .start rfl) slot)
  | pop a =>
    obtain ⟨r, hr, rfl⟩ := h
    exact .advance _ (.setReg _ (.writeMem _ (.setReg _ .start (.inl hr)) rfl) (.inr rfl))
  | prn a =>
    obtain ⟨r, hr, rfl⟩ := h
    exact .advance _ (.emit _ .start ⟨r, hr⟩)
  | call a =>
    obtain ⟨r, _, rfl⟩ := h
    have slot : storedAt (.call a) s = some (s.reg sp - 1) := by simp [storedAt, belowSp_eq]
    exact .redirect _ (.setReg _ (.writeMem _ .start slot) rfl)
  | jmp a =>
    obtain ⟨_, _, rfl⟩ := h
    exact .redirect _ .start
  | jeq a | jne a =>
    obtain ⟨_, _, rfl⟩ := h
    split
    · exact .redirect _ .start
    · exact .advance _ .start
  | not a =>
    simp only [Effect] at h
    split at h
    · exact h.updates fun _ hr => hr
    · obtain ⟨_, hr, rfl⟩ := h
      exact .advance _ (.setReg _ .start hr)
  | ldi a imm =>
    obtain ⟨_, hr, rfl⟩ := h
    exact .advance _ (.setReg _ .start hr)
  | st addr b =>
    obtain ⟨_, _, rfl⟩ := h
    exact .advance _ (.writeMem _ .start rfl)
  | mod a b =>
    obtain ⟨ra, rb, ha, hb, rfl⟩ := h
    split
    next hz => exact .advance _ (.halt (.emit _ .start ⟨ra, rb, ha, hb, hz⟩) (.inr ⟨a, b, rb, rfl, hb, hz⟩))
    next => exact .advance _ (.setReg _ .start ha)
  | cmp a b =>
    obtain ⟨_, _, _, _, rfl⟩ := h
    exact .advance _ (.compare _ _ .start rfl)
  | add | mul | and | or | xor | shl | shr => exact AluEffect.updates h fun _ hr => hr

theorem FaultsOn.updates (h : FaultsOn (checkedOperands i s) s t) : Updates i s t := by
  obtain ⟨before, k, after, hops, _, hf, rfl⟩ := h
  exact .fault .start (by simp [hops]) hf

theorem exec_updates (h : exec i s = .next t) : Updates i s t :=
  (exec_cases h).elim Effect.updates FaultsOn.updates

/-! ## The frame of each field -/

theorem Updates.mem_wf (h : Updates i s t) (hs : s.mem.wf = true) : t.mem.wf = true := by
  induction h with
  | start => exact hs
  | writeMem v _ _ ih => exact State.writeMem_wf _ v ih
  | compare _ _ _ _ ih => rwa [State.compare_mem]
  | setReg _ _ _ ih | emit _ _ _ ih | halt _ _ ih | fault _ _ _ ih | advance _ _ ih | redirect _ _ ih => exact ih

theorem Updates.sameFlags (h : Updates i s t) (hi : i.mnemonic ≠ .cmp) : SameFlags s t := by
  induction h with
  | start => exact ⟨rfl, rfl, rfl⟩
  | compare _ _ _ hc => exact absurd hc hi
  | setReg _ _ _ ih | writeMem _ _ _ ih | emit _ _ _ ih | halt _ _ ih | fault _ _ _ ih | advance _ _ ih
  | redirect _ _ ih => exact ih

theorem Updates.reg_eq (h : Updates i s t) {r : RegIdx} (hr : ¬ MayWriteReg i s r) : t.reg r = s.reg r := by
  induction h with
  | start => rfl
  | setReg v _ hq ih =>
    have ne : r ≠ _ := fun e => hr (e ▸ hq)
    rw [State.setReg_reg_other _ _ _ _ ne, ih]
  | compare _ _ _ _ ih => rwa [State.compare_reg]
  | writeMem _ _ _ ih | emit _ _ _ ih | halt _ _ ih | fault _ _ _ ih | advance _ _ ih | redirect _ _ ih => exact ih

theorem Updates.out_eq (h : Updates i s t) (he : ¬ Emits i s) : t.out = s.out := by
  induction h with
  | start => rfl
  | emit _ _ hemits => exact absurd hemits he
  | compare _ _ _ _ ih => rwa [State.compare_out]
  | setReg _ _ _ ih | writeMem _ _ _ ih | halt _ _ ih | fault _ _ _ ih | advance _ _ ih | redirect _ _ ih => exact ih

/-- No update removes an event. -/
theorem Updates.out_grows (h : Updates i s t) : ∃ evs, t.out = s.out ++ evs := by
  induction h with
  | start => exact ⟨[], (List.append_nil _).symm⟩
  | emit ev _ _ ih =>
    obtain ⟨evs, hout⟩ := ih
    exact ⟨evs ++ [ev], by rw [State.emit_out, hout, List.append_assoc]⟩
  | compare _ _ _ _ ih => rwa [State.compare_out]
  | setReg _ _ _ ih | writeMem _ _ _ ih | halt _ _ ih | fault _ _ _ ih | advance _ _ ih | redirect _ _ ih => exact ih

theorem Updates.halts (h : Updates i s t) (hs : s.run ≠ .halted) (ht : t.run = .halted) : Halts i s := by
  induction h with
  | start => exact absurd ht hs
  | halt _ hh => exact hh
  | fault => simp at ht
  | compare _ _ _ _ ih => exact ih (by rwa [State.compare_run] at ht)
  | setReg _ _ _ ih | writeMem _ _ _ ih | emit _ _ _ ih | advance _ _ ih | redirect _ _ ih => exact ih ht

end Updates

/-- Settles O3: memory changes by byte writes alone, which keep the canonical form, and the map never changes. -/
theorem everyStepKeepsTheInvariant : Obligations.EveryStepKeepsTheInvariant := by
  rintro s t ⟨hmem, hmap⟩ h
  obtain ⟨_, _, ⟨i, _, _, hexec⟩ | ⟨_, _, _, rfl⟩⟩ := step_cases h
  · refine ⟨(exec_updates hexec).mem_wf hmem, ?_⟩
    rwa [exec_params_eq hexec]
  · exact ⟨hmem, hmap⟩

/-- Settles O16: of the updates only CMP's comparison writes a flag. -/
theorem onlyCmpWritesFlags : Obligations.OnlyCmpWritesFlags := fun _ _ _ hi h =>
  (exec_updates h).sameFlags hi

/-- Settles O20: every register write of an instruction is to a register it may write. -/
theorem registersChangeOnlyWhereWritten : Obligations.RegistersChangeOnlyWhereWritten := fun _ _ _ _ h hr =>
  (exec_updates h).reg_eq hr

theorem exec_mod_zero {s : State} {a b : Byte} {ra rb : RegIdx} (ha : RegNames s a ra) (hb : RegNames s b rb)
    (hz : s.reg rb = 0) :
    exec (.mod a b) s = .next ((s.emit .divZeroDiag).halt.advance (s.len .mod)) :=
  (withRegs_names ha hb _).trans (if_pos hz)

/-- Settles O21: the two emitting cases by their meanings, the rest by the two frame rules of `out`. -/
theorem outputOnlyGrowsByPrnAndModByZero : Obligations.OutputOnlyGrowsByPrnAndModByZero := by
  intro i s t h
  refine ⟨?_, ?_, (exec_updates h).out_eq, (exec_updates h).out_grows⟩
  · rintro a r rfl hr
    rw [exec_prn_names hr] at h
    cases h
    rfl
  · rintro a b ra rb rfl ha hb hz
    rw [exec_mod_zero ha hb hz] at h
    cases h
    rfl

/-- Settles O27: of the updates only `halt` enters `halted`. -/
theorem onlyHltAndModByZeroHalt : Obligations.OnlyHltAndModByZeroHalt := fun _ s _ hs h ht =>
  (exec_updates h).halts (by simp [hs]) ht

/-! ## The program counter (R25) -/

theorem AluEffect.pc_eq {mn : Mnemonic} {f : Byte → Byte → Byte} {a b : Byte} {s t : State}
    (h : AluEffect mn f a b s t) : t.pc = advancedPc s mn := by
  obtain ⟨_, _, _, _, rfl⟩ := h
  exact pcPlus_len s mn

theorem Effect.pc_eq {i : Instr} {s t : State} (h : Effect i s t) (hi : ¬ redirects i s) :
    t.pc = advancedPc s i.mnemonic := by
  cases i with
  | jmp | call | ret => simp [redirects, Instr.mnemonic] at hi
  | jeq a =>
    obtain ⟨_, _, rfl⟩ := h
    have untaken : s.E = false := by simpa [redirects, Instr.mnemonic] using hi
    rw [untaken]
    exact pcPlus_len s _
  | jne a =>
    obtain ⟨_, _, rfl⟩ := h
    have untaken : s.E = true := by simpa [redirects, Instr.mnemonic] using hi
    rw [untaken]
    exact pcPlus_len s _
  | hlt =>
    subst h
    exact pcPlus_len s _
  | push | pop | prn | ldi | st =>
    obtain ⟨_, _, rfl⟩ := h
    exact pcPlus_len s _
  | not a =>
    simp only [Effect] at h
    split at h
    · exact h.pc_eq
    · obtain ⟨_, _, rfl⟩ := h
      exact pcPlus_len s _
  | mod =>
    obtain ⟨_, _, _, _, rfl⟩ := h
    split <;> exact pcPlus_len s _
  | cmp =>
    obtain ⟨_, _, _, _, rfl⟩ := h
    rw [State.advance_pc, State.compare_pc]
    exact pcPlus_len s _
  | add | mul | and | or | xor | shl | shr => exact AluEffect.pc_eq h

theorem FaultsOn.exists_faults {operands : List Byte} {s t : State} (h : FaultsOn operands s t) :
    ∃ k ∈ operands, RegFaults s k := by
  obtain ⟨before, k, after, rfl, _, hf, _⟩ := h
  exact ⟨k, by simp, hf⟩

/-- Settles O24: without a bad operand the instruction has its effect, which ends in the generic advance. -/
theorem pcAdvancesByTheLength : Obligations.PcAdvancesByTheLength := by
  intro i s t h hi hok
  rcases exec_cases h with heff | hfault
  · exact heff.pc_eq hi
  · obtain ⟨k, hk, hf⟩ := hfault.exists_faults
    exact absurd hf (hok k hk)

/-- Settles O35: both halts are cases of the generic advance. -/
theorem haltsTakeTheGenericAdvance : Obligations.HaltsTakeTheGenericAdvance := by
  intro s
  constructor
  · intro t h
    exact pcAdvancesByTheLength .hlt s t h (by simp [redirects, Instr.mnemonic])
      (by simp [checkedOperands, Instr.regOperands, Instr.mnemonic])
  · intro a b ra rb t ha hb _ h
    refine pcAdvancesByTheLength (.mod a b) s t h (by simp [redirects, Instr.mnemonic]) fun k hk => ?_
    have hk : k = a ∨ k = b := by simpa [checkedOperands, Instr.regOperands, Instr.mnemonic] using hk
    rcases hk with rfl | rfl
    · exact ha.not_faults
    · exact hb.not_faults

/-! ## What is read of the flags (R27) -/

/-- `s` with its flags changed to `e`, `g`, `l`. -/
def State.withFlags (s : State) (e g l : Bool) : State := { s with E := e, G := g, L := l }

/-- An outcome with its next state, if it is one, changed by `f`. -/
def mapNext (f : State → State) : Host.Outcome State Fault Refusal → Host.Outcome State Fault Refusal
  | .next t => .next (f t)
  | .fault r => .fault r
  | .refused r => .refused r

section Flags
variable {s : State} {e g l : Bool} {a b : Byte}

/-- A register operand's check reads no flag: changing the flags before it changes them after it, if that holds of the
instruction's effect. -/
theorem withReg_withFlags {k k' : RegIdx → Host.Outcome State Fault Refusal}
    (hk : ∀ r, k' r = mapNext (·.withFlags e g l) (k r)) :
    withReg a (s.withFlags e g l) k' = mapNext (·.withFlags e g l) (withReg a s k) := by
  rcases reg_names_or_faults s a with ⟨r, hr⟩ | hf
  · rw [withReg_names hr, withReg_names (s := s.withFlags e g l) hr, hk]
  · rw [withReg_faults hf, withReg_faults (s := s.withFlags e g l) hf]
    rfl

theorem withRegs_withFlags {k k' : RegIdx → RegIdx → Host.Outcome State Fault Refusal}
    (hk : ∀ ra rb, k' ra rb = mapNext (·.withFlags e g l) (k ra rb)) :
    withRegs a b (s.withFlags e g l) k' = mapNext (·.withFlags e g l) (withRegs a b s k) :=
  withReg_withFlags fun ra => withReg_withFlags (hk ra)

theorem aluBinary_withFlags (mn : Mnemonic) (f : Byte → Byte → Byte) :
    aluBinary mn f a b (s.withFlags e g l) = mapNext (·.withFlags e g l) (aluBinary mn f a b s) :=
  withRegs_withFlags fun _ _ => rfl

theorem jumpIf_withFlags (mn : Mnemonic) (taken : Bool) :
    jumpIf mn taken a (s.withFlags e g l) = mapNext (·.withFlags e g l) (jumpIf mn taken a s) :=
  withReg_withFlags fun _ => by cases taken <;> rfl

/-- An instruction but CMP does the same whatever the flags are, and leaves them so; for JEQ and JNE whatever `G` and
`L` are. -/
theorem exec_withFlags {i : Instr} (hi : i.mnemonic ≠ .cmp) (he : i.mnemonic = .jeq ∨ i.mnemonic = .jne → e = s.E) :
    exec i (s.withFlags e g l) = mapNext (·.withFlags e g l) (exec i s) := by
  cases i with
  | hlt | ret => rfl
  | push | pop | prn | call | ldi | st => exact withReg_withFlags fun _ => rfl
  | jmp => exact jumpIf_withFlags _ _
  | jeq =>
    obtain rfl := he (.inl rfl)
    exact jumpIf_withFlags _ _
  | jne =>
    obtain rfl := he (.inr rfl)
    exact jumpIf_withFlags _ _
  | mod a b =>
    refine withRegs_withFlags fun ra rb => ?_
    by_cases hz : s.reg rb = 0
    · rw [if_pos hz]
      exact if_pos hz
    · rw [if_neg hz]
      exact if_neg hz
  | cmp => exact absurd rfl hi
  | add | mul | and | shl | shr => exact aluBinary_withFlags _ _
  | not =>
    by_cases hp : s.params.notOrXorAsAnd = true
    · simp only [exec, execNot, State.withFlags, hp]
      exact aluBinary_withFlags _ _
    · simp only [exec, execNot, State.withFlags, hp]
      exact withReg_withFlags fun _ => rfl
  | or | xor =>
    by_cases hp : s.params.notOrXorAsAnd = true <;> simp only [exec, execOr, execXor, State.withFlags, hp] <;>
      exact aluBinary_withFlags _ _

/-- R113 flag by flag: each flag after a comparison depends on itself alone before it. -/
theorem State.compare_eq_withFlags (s : State) (va vb : Byte) :
    s.compare va vb = s.withFlags (s.E || decide (va = vb)) (s.G || decide (vb < va)) (s.L || decide (va < vb)) := by
  rw [← State.compare_E, ← State.compare_G, ← State.compare_L]
  rcases s.compare_cases va vb with ⟨_, h⟩ | ⟨_, h⟩ | ⟨_, h⟩ <;> rw [h] <;> rfl

/-- CMP reads a flag only into that flag: where one was not changed before it, it is the same after it. -/
theorem exec_cmp_withFlags {t : State} (h : exec (.cmp a b) s = .next t) :
    ∃ e' g' l', exec (.cmp a b) (s.withFlags e g l) = .next (t.withFlags e' g' l') ∧
      (e = s.E → e' = t.E) ∧ (g = s.G → g' = t.G) ∧ (l = s.L → l' = t.L) := by
  rcases withRegs_next h with ⟨ra, rb, ha, hb, h⟩ | ⟨hf, rfl⟩ | ⟨hn, hf, rfl⟩
  · cases h
    refine ⟨e || decide (s.reg ra = s.reg rb), g || decide (s.reg rb < s.reg ra), l || decide (s.reg ra < s.reg rb),
      (withRegs_names (s := s.withFlags e g l) ha hb _).trans ?_, ?_, ?_, ?_⟩
    · rw [State.compare_eq_withFlags (s.withFlags e g l), State.compare_eq_withFlags s]
      rfl
    · rintro rfl
      exact (State.compare_E ..).symm
    · rintro rfl
      exact (State.compare_G ..).symm
    · rintro rfl
      exact (State.compare_L ..).symm
  · exact ⟨e, g, l, withReg_faults (s := s.withFlags e g l) hf _, id, id, id⟩
  · obtain ⟨ra, ha⟩ := (reg_names_or_faults s a).resolve_right hn
    exact ⟨e, g, l, (withReg_names (s := s.withFlags e g l) ha _).trans
      (withReg_faults (s := s.withFlags e g l) hf _), id, id, id⟩

/-- Any instruction does the same to all but the flags whatever they are (JEQ and JNE, whatever `G` and `L` are), and
a flag that was not changed before it is the same after it. -/
theorem exec_withFlags_next {i : Instr} {t : State} (h : exec i s = .next t)
    (he : i.mnemonic = .jeq ∨ i.mnemonic = .jne → e = s.E) :
    ∃ e' g' l', exec i (s.withFlags e g l) = .next (t.withFlags e' g' l') ∧
      (e = s.E → e' = t.E) ∧ (g = s.G → g' = t.G) ∧ (l = s.L → l' = t.L) := by
  by_cases hi : i.mnemonic = .cmp
  · cases i <;> cases hi
    exact exec_cmp_withFlags h
  · obtain ⟨hE, hG, hL⟩ := onlyCmpWritesFlags i s t hi h
    refine ⟨e, g, l, ?_, fun x => x.trans hE.symm, fun x => x.trans hG.symm, fun x => x.trans hL.symm⟩
    rw [exec_withFlags hi he, h]
    rfl

end Flags

/-- Settles O18: a changed flag stays apart from all else by `exec_withFlags_next`. -/
theorem onlyJeqAndJneReadAFlagAndOnlyE : Obligations.OnlyJeqAndJneReadAFlagAndOnlyE := by
  intro i s t h
  refine ⟨fun hi => onlyCmpWritesFlags i s t hi h, fun g l => ?_, fun hjeq hjne e => ?_⟩
  · obtain ⟨e', g', l', hexec, hE, _, _⟩ := exec_withFlags_next (g := g) (l := l) h fun _ => rfl
    obtain rfl := hE rfl
    exact ⟨g', l', hexec⟩
  · obtain ⟨e', g', l', hexec, _, hG, hL⟩ :=
      exec_withFlags_next (e := e) (g := s.G) (l := s.L) h fun hj => (hj.elim hjeq hjne).elim
    obtain rfl := hG rfl
    obtain rfl := hL rfl
    exact ⟨e', hexec⟩

/-! ## Reset and a stopped core (R29, R35) -/

/-- Memory after reset reads 0 everywhere. -/
theorem reset_readMem (addr : Byte) : State.reset.readMem addr = 0 := rfl

/-- Settles O1: each value is the reset state's own. -/
theorem resetLeavesTheStatedValues : Obligations.ResetLeavesTheStatedValues :=
  ⟨reset_readMem, by decide, rfl, rfl, rfl, rfl, rfl, rfl, rfl, rfl⟩

theorem step_halted {s : State} (h : s.run = .halted) : step s = .fault .halted := by
  simp [step, cycle, h]

theorem step_faulted {s : State} {f : FaultRecord} (h : s.run = .faulted f) : step s = .fault (.faulted f) := by
  simp [step, cycle, h]

/-- Settles O8: the cycle looks at the run state first. -/
theorem stoppedCoreNamesItsState : Obligations.StoppedCoreNamesItsState := fun _ =>
  ⟨step_halted, fun _ => step_faulted⟩

end Sys2Proof.Machine

/-! The statements of 20_memory.md (O19, O30, O2, O29): the one byte a write changes, the bytes an instruction leaves as
they are, a store seen by the next fetch, and memory at reset. -/

namespace Sys2Proof.Machine

/-- The frame of memory, beside those of the other fields. -/
theorem Updates.readMem_eq {i : Instr} {s t : State} (h : Updates i s t) {addr : Byte}
    (hs : storedAt i s ≠ some addr) : t.readMem addr = s.readMem addr := by
  induction h with
  | start => rfl
  | writeMem v _ hslot ih =>
    have ne : addr ≠ _ := fun e => hs (e ▸ hslot)
    rw [State.readMem_writeMem_other _ _ _ _ ne, ih]
  | compare _ _ _ _ ih => rwa [State.compare_readMem]
  | setReg _ _ _ ih | emit _ _ _ ih | halt _ _ ih | fault _ _ _ ih | advance _ _ ih | redirect _ _ ih => exact ih

/-- Settles O19: every memory write of an instruction is to the address it stores to. -/
theorem memoryChangesOnlyWhereStored : Obligations.MemoryChangesOnlyWhereStored := fun _ _ _ h _ hs =>
  (exec_updates h).readMem_eq hs

theorem fetch_head? (s : State) : s.fetch.head? = some (s.readMem s.pc) := by
  obtain ⟨_, hfetch, _⟩ := fetch_cons s
  rw [hfetch, List.head?_cons]

theorem exec_st_names {s : State} {addr b : Byte} {rb : RegIdx} (h : RegNames s b rb) :
    exec (.st addr b) s = .next ((s.writeMem addr (s.reg rb)).advance (s.len .st)) :=
  withReg_names h _

/-- Settles O30: the byte at the next `pc` is the stored one, and a fetch begins with the byte at `pc` and has the
length that byte gives. -/
theorem storeIsSeenByTheNextFetch : Obligations.StoreIsSeenByTheNextFetch := by
  intro s t addr b rb hb h hpc
  have hread : t.readMem t.pc = s.reg rb := by
    rw [exec_st_names hb] at h
    cases h
    rw [hpc, State.advance_readMem, State.readMem_writeMem_same]
  rw [fetch_head?, fetch_length, hread]
  exact ⟨rfl, rfl⟩

/-- Settles O2: no cell is listed at reset, and the parameters hold the default map. -/
theorem resetMeetsTheInvariant : Obligations.ResetMeetsTheInvariant := ⟨reset_mem_wf, Laws.default_wf⟩

/-- Settles O29: the two reading rules of a write, which replaces the field `mem` alone. -/
theorem memoryWriteChangesOneByte : Obligations.MemoryWriteChangesOneByte := fun s addr v =>
  ⟨s.readMem_writeMem_same addr v, fun other => s.readMem_writeMem_other addr other v, rfl⟩

end Sys2Proof.Machine

/-! The statements of 30_encoding.md (O13, O6, O14, O5, O9, O10, O15): the decoder and the encoder as inverses, the bytes
of a fetch, and what a step of a running core answers. -/

namespace Sys2Proof.Laws

/-- When bytes are an instruction: the first byte is a mnemonic's, and as many bytes after it as it asks for build the
instruction. -/
theorem decode_eq_instr_iff {m : OpcodeMap} {bs rest : List Byte} {i : Instr} :
    decode m bs = .ok (.instr i, rest) ↔
      ∃ ir body mn, bs = ir :: (body ++ rest) ∧ body.length + 1 = lenOf ir ∧ m.find ir = some mn ∧
        mn.build body = some i := by
  constructor
  · intro h
    match bs with
    | [] => simp [decode] at h
    | ir :: tail =>
      simp only [decode] at h
      split at h
      next => simp at h
      next hlong =>
        have hpos := lenOf_pos ir
        split at h
        next => simp at h
        next mn hfind =>
          split at h
          next => simp at h
          next j hbuild =>
            obtain ⟨rfl, rfl⟩ : j = i ∧ tail.drop (lenOf ir - 1) = rest := by simpa using h
            refine ⟨ir, tail.take (lenOf ir - 1), mn, by rw [List.take_append_drop], ?_, hfind, hbuild⟩
            rw [List.length_take]
            omega
  · rintro ⟨ir, body, mn, rfl, hlen, hfind, hbuild⟩
    have hlong : ¬ (body ++ rest).length + 1 < lenOf ir := by
      rw [List.length_append]
      omega
    have hbody : lenOf ir - 1 = body.length := by omega
    simp only [decode, if_neg hlong, hbody, List.take_left, List.drop_left, hfind, hbuild]

/-- The decoder inverts the encoder, under every map that meets R63. -/
theorem decode_encode {m : OpcodeMap} (h : m.wf = true) (i : Instr) (rest : List Byte) :
    decode m (encode m i ++ rest) = .ok (.instr i, rest) := by
  obtain ⟨hlen, _, _⟩ := encoding_shape i m h
  exact decode_eq_instr_iff.mpr
    ⟨_, _, i.mnemonic, List.cons_append, hlen, find_byteOf h i.mnemonic, build_operands i _⟩

/-- Settles O13: `decode_encode`, whose operand bytes and skipped bytes are the body that its length counts. -/
theorem decodingAnEncodedInstructionGivesItBack : Obligations.DecodingAnEncodedInstructionGivesItBack :=
  fun _ i rest h => decode_encode h i rest

/-- R64's bytes give each mnemonic exactly the length its operands need. -/
theorem lenOf_default_byteOf (mn : Mnemonic) : lenOf (OpcodeMap.default.byteOf mn) = mn.operandBytes + 1 := by
  cases mn <;> rfl

/-- Just enough operand bytes are all operands of the instruction they build. -/
theorem build_exact {mn : Mnemonic} {body : List Byte} {i : Instr} (h : mn.build body = some i)
    (hl : body.length = mn.operandBytes) : i.mnemonic = mn ∧ i.operands = body := by
  obtain ⟨j, hj, hmn, hops⟩ := build_of_length hl.ge
  obtain rfl : j = i := by simpa [hj] using h
  exact ⟨hmn, by rw [hops, ← hl, List.take_length]⟩

/-- Where a map gives an instruction no more length than its operands need, its encoding is its byte and its operands. -/
theorem encode_eq_of_lenOf {m : OpcodeMap} {i : Instr}
    (h : lenOf (m.byteOf i.mnemonic) = i.mnemonic.operandBytes + 1) :
    encode m i = m.byteOf i.mnemonic :: i.operands := by
  simp [encode, h, operands_length]

/-- Settles O14: under the default map the bytes after the first are just the operands, with none skipped. -/
theorem defaultDecodingIsExact : Obligations.DefaultDecodingIsExact := by
  intro bs rest i h
  obtain ⟨ir, body, mn, rfl, hlen, hfind, hbuild⟩ := decode_eq_instr_iff.mp h
  obtain rfl := find_some hfind
  rw [lenOf_default_byteOf] at hlen
  obtain ⟨rfl, rfl⟩ := build_exact hbuild (by omega)
  rw [encode_eq_of_lenOf (lenOf_default_byteOf _), List.cons_append]

/-- Settles O15: the map and its lengths by the lemmas above, each word by running the decoder. -/
theorem defaultTableWordsDecode : Obligations.DefaultTableWordsDecode :=
  ⟨default_wf, lenOf_default_byteOf, rfl, rfl, rfl, rfl, rfl, rfl, rfl, rfl⟩

end Sys2Proof.Laws

namespace Sys2Proof.Machine

/-! ## Every instruction answers a next state (R69) -/

section Completes
variable {s : State} {a b : Byte}

/-- Whether the operand names a register or faults, there is a next state. -/
theorem withReg_completes {k : RegIdx → Host.Outcome State Fault Refusal} (hk : ∀ r, ∃ t, k r = .next t) :
    ∃ t, withReg a s k = .next t := by
  rcases reg_names_or_faults s a with ⟨r, hr⟩ | hf
  · rw [withReg_names hr]
    exact hk r
  · exact ⟨_, withReg_faults hf k⟩

theorem withRegs_completes {k : RegIdx → RegIdx → Host.Outcome State Fault Refusal}
    (hk : ∀ ra rb, ∃ t, k ra rb = .next t) : ∃ t, withRegs a b s k = .next t :=
  withReg_completes fun ra => withReg_completes (hk ra)

theorem aluBinary_completes (mn : Mnemonic) (f : Byte → Byte → Byte) : ∃ t, aluBinary mn f a b s = .next t :=
  withRegs_completes fun _ _ => ⟨_, rfl⟩

theorem exec_completes (i : Instr) (s : State) : ∃ t, exec i s = .next t := by
  cases i with
  | hlt | ret => exact ⟨_, rfl⟩
  | push | pop | prn | call | jmp | jeq | jne | ldi | st => exact withReg_completes fun _ => ⟨_, rfl⟩
  | add | mul | and | shl | shr => exact aluBinary_completes _ _
  | cmp => exact withRegs_completes fun _ _ => ⟨_, rfl⟩
  | mod =>
    refine withRegs_completes fun _ _ => ?_
    split <;> exact ⟨_, rfl⟩
  | not =>
    simp only [exec, execNot]
    split
    · exact aluBinary_completes _ _
    · exact withReg_completes fun _ => ⟨_, rfl⟩
  | or | xor =>
    simp only [exec, execOr, execXor]
    split <;> exact aluBinary_completes _ _

end Completes

/-! ## The step of a running core (R63, R66) -/

theorem step_of_decode_instr {s : State} {i : Instr} {rest : List Byte} (hr : s.run = .running)
    (hw : s.params.opcodes.wf = true) (hd : decode s.params.opcodes s.fetch = .ok (.instr i, rest)) :
    step s = exec i s := by
  rw [step_running hr hw, hd]
  rfl

theorem step_of_decode_unrecognized {s : State} {ir : Byte} {rest : List Byte} (hr : s.run = .running)
    (hw : s.params.opcodes.wf = true) (hd : decode s.params.opcodes s.fetch = .ok (.unrecognized ir, rest)) :
    step s = .next (s.advance (lenOf ir)) := by
  rw [step_running hr hw, hd]
  rfl

theorem step_illFormed {s : State} (hr : s.run = .running) (hw : s.params.opcodes.wf = false) :
    step s = .refused .illFormedOpcodeMap := by
  simp [step, cycle, hr, hw]

/-- Settles O6: fetched bytes always decode, to an instruction, which completes, or to an unrecognized byte. -/
theorem runningCoreAlwaysSteps : Obligations.RunningCoreAlwaysSteps := by
  intro s hr hw
  rcases decode_fetch hw with ⟨i, hd, _⟩ | ⟨_, hd⟩
  · rw [step_of_decode_instr hr hw hd]
    exact exec_completes i s
  · exact ⟨_, step_of_decode_unrecognized hr hw hd⟩

theorem boot_illFormed {p : Params} (image : List Byte) (hw : p.opcodes.wf = false) :
    boot p image = .refused .illFormedOpcodeMap := if_pos hw

theorem boot_imageTooLong {p : Params} {image : List Byte} (hw : p.opcodes.wf = true) (hl : 256 < image.length) :
    boot p image = .refused .imageTooLong := by
  simp [boot, hw, hl]

/-- Settles O5: `boot` looks at the map before the image, and `step` at the map before the fetch. -/
theorem badMapsAndLongImagesAreRefused : Obligations.BadMapsAndLongImagesAreRefused :=
  ⟨fun _ image => boot_illFormed image, fun _ _ => boot_imageTooLong, fun _ => step_illFormed⟩

/-- Settles O9: past its two checks the cycle dispatches on the decoded bytes alone. -/
theorem stepRunsTheDecodedInstruction : Obligations.StepRunsTheDecodedInstruction :=
  fun _ _ _ => step_of_decode_instr

/-! ## The bytes of a fetch (R60, R61) -/

/-- What is fetched, in the addresses of R60. -/
theorem fetch_eq_map (s : State) :
    s.fetch = (List.range (lenOf (s.readMem s.pc))).map fun k => s.readMem (wrap8 (s.pc.toNat + k)) := by
  simp only [State.fetch, pcPlus_eq]

@[simp] theorem wrap8_toNat (x : Byte) : wrap8 x.toNat = x := by
  simp [wrap8]

/-- Settles O10: the length in numbers is `Laws.lenOf_eq`, the addresses are those of `fetch_eq_map`. -/
theorem fetchReadsAsManyBytesAsTheTopBitsSay : Obligations.FetchReadsAsManyBytesAsTheTopBitsSay := by
  intro s
  have hfetch := fetch_eq_map s
  rw [Laws.lenOf_eq] at hfetch
  refine ⟨fun h => ?_, fun h h' => ?_, fun h => ?_⟩
  · rw [hfetch, if_pos h]
    simp [List.range_succ]
  · rw [hfetch, if_neg (by omega), if_pos h]
    simp [List.range_succ]
  · rw [hfetch, if_neg (by omega), if_neg (by omega)]
    simp

end Sys2Proof.Machine

/-! The statements of 40_ldi_prn_hlt.md (O31, O32, O34): the whole next state of LDI, PRN and HLT. -/

namespace Sys2Proof.Laws

/-- R63 clause 2 with R61: two operand bytes leave no other length than 3, under every map that meets R63. -/
theorem lenOf_byteOf_of_two_operands {m : OpcodeMap} {mn : Mnemonic} (h : m.wf = true) (hmn : mn.operandBytes = 2) :
    lenOf (m.byteOf mn) = 3 := by
  have fits := wf_length_fits h mn
  have lengths := lenOf_cases (m.byteOf mn)
  omega

end Sys2Proof.Laws

namespace Sys2Proof.Machine

theorem State.len_of_two_operands {s : State} {mn : Mnemonic} (hw : s.params.opcodes.wf = true)
    (hmn : mn.operandBytes = 2) : s.len mn = 3 :=
  Laws.lenOf_byteOf_of_two_operands hw hmn

/-- The generic advance as one field update, in the numbers of R25. -/
theorem State.advance_eq (s : State) (n : Nat) : s.advance n = { s with pc := wrap8 (s.pc.toNat + n) } := by
  rw [State.advance, pcPlus_eq]

theorem exec_ldi_names {s : State} {a : Byte} {r : RegIdx} (imm : Byte) (h : RegNames s a r) :
    exec (.ldi a imm) s = .next ((s.setReg r imm).advance (s.len .ldi)) :=
  withReg_names h _

theorem exec_hlt (s : State) : exec .hlt s = .next (s.halt.advance (s.len .hlt)) := rfl

/-- Settles O31: a named register is written and `pc` advances by the only length R63 leaves LDI; a bad operand faults
before that. -/
theorem ldiLoadsTheImmediate : Obligations.LdiLoadsTheImmediate := by
  intro s a imm hw
  refine ⟨fun r hr => ?_, fun hf => withReg_faults hf _⟩
  rw [CompletesWriting, exec_ldi_names imm hr, State.len_of_two_operands hw rfl, State.advance_eq]
  rfl

/-- Settles O32: the emitted event and the generic advance are PRN's two updates. -/
theorem prnEmitsTheRegister : Obligations.PrnEmitsTheRegister := by
  intro s a r hr
  rw [exec_prn_names hr, State.advance_eq]
  rfl

/-- Settles O34: a halt and an advance update `run` and `pc` alone. -/
theorem hltHalts : Obligations.HltHalts := fun s => ⟨_, exec_hlt s, rfl⟩

end Sys2Proof.Machine

/-! The statements of 41_alu.md (O17, O36 to O44, O46, O47): the ALU form's whole next state and its faults, the results
in the numbers of the rules, compatibility mode, and the flags of CMP. -/

namespace Sys2Proof.Machine

/-! ## Results in numbers (R110) -/

theorem add_eq_wrap8 (x y : Byte) : x + y = wrap8 (x.toNat + y.toNat) := by
  rw [← wrap8_toNat_add, wrap8_toNat]

theorem mulByte_eq_wrap8 (x y : Byte) : mulByte x y = wrap8 (x.toNat * y.toNat) :=
  BitVec.eq_of_toNat_eq (BitVec.toNat_mul x y)

theorem notByte_eq_wrap8 (x : Byte) : notByte x = wrap8 (255 - x.toNat) := by
  have value : (notByte x).toNat = 255 - x.toNat := BitVec.toNat_not
  rw [← value, wrap8_toNat]

theorem modByte_eq_wrap8 (x y : Byte) : modByte x y = wrap8 (x.toNat % y.toNat) := by
  rw [← BitVec.toNat_umod, wrap8_toNat, modByte]

theorem shlByte_eq_wrap8 (x y : Byte) : shlByte x y = wrap8 (x.toNat * 2 ^ y.toNat) := by
  rw [← Nat.shiftLeft_eq]
  exact BitVec.eq_of_toNat_eq BitVec.toNat_shiftLeft

theorem shrByte_eq_wrap8 (x y : Byte) : shrByte x y = wrap8 (x.toNat / 2 ^ y.toNat) := by
  rw [← Nat.shiftRight_eq_div_pow, ← BitVec.toNat_ushiftRight, wrap8_toNat, shrByte]

/-! ## The common forms -/

theorem advancedPc_of_two_operands {s : State} {mn : Mnemonic} (hw : s.params.opcodes.wf = true)
    (hmn : mn.operandBytes = 2) : advancedPc s mn = wrap8 (s.pc.toNat + 3) := by
  rw [advancedPc, Laws.lenOf_byteOf_of_two_operands hw hmn]

section Alu
variable {i : Instr} {s : State} {a b : Byte} {ra rb : RegIdx} {mn : Mnemonic} {f : Byte → Byte → Byte}

/-- A register write and the generic advance are the whole effect `CompletesWriting` speaks of. -/
theorem completesWriting_of_setReg_advance {v : Byte}
    (h : exec i s = .next ((s.setReg ra v).advance (s.len mn))) : CompletesWriting i s ra v (advancedPc s mn) := by
  rw [CompletesWriting, h, State.advance_eq]
  rfl

/-- An instruction that begins with the checks of two register operands faults on the first bad one (R206). -/
theorem faultsOnBadRegisters_of_withRegs {k : RegIdx → RegIdx → Host.Outcome State Fault Refusal}
    (h : exec i s = withRegs a b s k) : FaultsOnBadRegisters i s a b := by
  refine ⟨fun hf => h.trans (withReg_faults hf _), fun hn hf => ?_⟩
  obtain ⟨ra, ha⟩ := (reg_names_or_faults s a).resolve_right hn
  exact h.trans ((withReg_names ha _).trans (withReg_faults hf _))

/-- The ALU form under any map, with the generic advance by the mnemonic's own length. -/
theorem aluBinary_completesWriting (h : exec i s = aluBinary mn f a b s) (ha : RegNames s a ra)
    (hb : RegNames s b rb) : CompletesWriting i s ra (f s.regs[ra] s.regs[rb]) (advancedPc s mn) :=
  completesWriting_of_setReg_advance (h.trans (aluBinary_names mn f ha hb))

/-- The ALU form under a map that meets R63, where two operand bytes make the length 3. -/
theorem aluBinary_completesWriting_three (hw : s.params.opcodes.wf = true) (hmn : mn.operandBytes = 2)
    (h : exec i s = aluBinary mn f a b s) (ha : RegNames s a ra) (hb : RegNames s b rb) :
    CompletesWriting i s ra (f s.regs[ra] s.regs[rb]) (wrap8 (s.pc.toNat + 3)) :=
  advancedPc_of_two_operands hw hmn ▸ aluBinary_completesWriting h ha hb

end Alu

/-! ## ADD, AND and MUL -/

/-- Settles O36: the ALU form with addition, whose result in numbers is `add_eq_wrap8`. -/
theorem addWritesTheSumModulo256 : Obligations.AddWritesTheSumModulo256 := by
  refine fun s a b hw => ⟨fun ra rb ha hb => ?_, faultsOnBadRegisters_of_withRegs rfl⟩
  rw [← add_eq_wrap8]
  exact aluBinary_completesWriting_three hw rfl rfl ha hb

/-- Settles O37: the ALU form with conjunction. -/
theorem andWritesTheConjunction : Obligations.AndWritesTheConjunction := fun _ _ _ hw =>
  ⟨fun _ _ ha hb => ⟨_, aluBinary_completesWriting_three hw rfl rfl ha hb, fun _ _ => BitVec.getLsbD_and⟩,
    faultsOnBadRegisters_of_withRegs rfl⟩

/-- Settles O41: the ALU form with multiplication, whose result in numbers is `mulByte_eq_wrap8`. -/
theorem mulWritesTheLowByteOfTheProduct : Obligations.MulWritesTheLowByteOfTheProduct := by
  refine fun s a b hw => ⟨fun ra rb ha hb => ?_, faultsOnBadRegisters_of_withRegs rfl⟩
  rw [← mulByte_eq_wrap8]
  exact aluBinary_completesWriting_three hw rfl rfl ha hb

/-! ## OR, XOR and NOT, in both modes of `NOT_OR_XOR_AS_AND` (R122) -/

section Compatibility
variable {s : State} {a b : Byte}

theorem exec_or (hp : s.params.notOrXorAsAnd = false) :
    exec (.or a b) s = aluBinary .or (fun va vb => va ||| vb) a b s := by
  simp [exec, execOr, hp]

theorem exec_xor (hp : s.params.notOrXorAsAnd = false) :
    exec (.xor a b) s = aluBinary .xor (fun va vb => va ^^^ vb) a b s := by
  simp [exec, execXor, hp]

theorem exec_not (hp : s.params.notOrXorAsAnd = false) :
    exec (.not a) s = withReg a s fun ra => .next ((s.setReg ra (notByte (s.reg ra))).advance (s.len .not)) := by
  simp [exec, execNot, hp]

theorem exec_or_compat (hp : s.params.notOrXorAsAnd = true) :
    exec (.or a b) s = aluBinary .or (fun va vb => va &&& vb) a b s := by
  simp [exec, execOr, compatBinary, hp]

theorem exec_xor_compat (hp : s.params.notOrXorAsAnd = true) :
    exec (.xor a b) s = aluBinary .xor (fun va vb => va &&& vb) a b s := by
  simp [exec, execXor, compatBinary, hp]

/-- In compatibility mode NOT takes its second operand from the byte at `pc + 2` (D10). -/
theorem exec_not_compat (hp : s.params.notOrXorAsAnd = true) :
    exec (.not a) s = aluBinary .not (fun va vb => va &&& vb) a (s.readMem (wrap8 (s.pc.toNat + 2))) s := by
  simp [exec, execNot, compatBinary, hp, pcPlus_eq]

end Compatibility

/-- Settles O38: outside compatibility mode OR is the ALU form with disjunction. -/
theorem orWritesTheDisjunction : Obligations.OrWritesTheDisjunction := fun _ _ _ hw hp =>
  ⟨fun _ _ ha hb => ⟨_, aluBinary_completesWriting_three hw rfl (exec_or hp) ha hb, fun _ _ => BitVec.getLsbD_or⟩,
    faultsOnBadRegisters_of_withRegs (exec_or hp)⟩

/-- Settles O39: outside compatibility mode XOR is the ALU form with exclusive or. -/
theorem xorWritesTheExclusiveOr : Obligations.XorWritesTheExclusiveOr := fun _ _ _ hw hp =>
  ⟨fun _ _ ha hb => ⟨_, aluBinary_completesWriting_three hw rfl (exec_xor hp) ha hb, fun _ _ => BitVec.getLsbD_xor⟩,
    faultsOnBadRegisters_of_withRegs (exec_xor hp)⟩

/-- Settles O40: outside compatibility mode NOT has one register operand, and the complement in numbers is
`notByte_eq_wrap8`. -/
theorem notWritesTheComplement : Obligations.NotWritesTheComplement := by
  refine fun s a hp => ⟨fun r hr => ?_, fun hf => (exec_not hp).trans (withReg_faults hf _)⟩
  rw [← notByte_eq_wrap8]
  exact completesWriting_of_setReg_advance ((exec_not hp).trans (withReg_names hr _))

/-- Settles O42: in compatibility mode all three are the ALU form with conjunction, under their own mnemonics. -/
theorem compatibilityModeMakesNotOrXorAnd : Obligations.CompatibilityModeMakesNotOrXorAnd := by
  refine fun s hp a b ra rb ha hb => ⟨s.regs[ra] &&& s.regs[rb], fun _ _ => BitVec.getLsbD_and,
    aluBinary_completesWriting (exec_or_compat hp) ha hb, aluBinary_completesWriting (exec_xor_compat hp) ha hb, ?_⟩
  rintro rfl
  exact aluBinary_completesWriting (exec_not_compat hp) ha hb

/-! ## MOD and the shifts -/

theorem exec_mod_nonzero {s : State} {a b : Byte} {ra rb : RegIdx} (ha : RegNames s a ra) (hb : RegNames s b rb)
    (hz : s.reg rb ≠ 0) :
    exec (.mod a b) s = .next ((s.setReg ra (modByte (s.reg ra) (s.reg rb))).advance (s.len .mod)) :=
  (withRegs_names ha hb _).trans (if_neg hz)

/-- Settles O44: a nonzero divisor leads to the branch that writes the remainder. -/
theorem modWritesTheRemainder : Obligations.ModWritesTheRemainder := by
  intro s a b ra rb hw ha hb hz
  rw [← modByte_eq_wrap8, ← advancedPc_of_two_operands (mn := .mod) hw rfl]
  exact completesWriting_of_setReg_advance (exec_mod_nonzero ha hb hz)

/-- Settles O46: the ALU form with the left shift, a multiplication by `shlByte_eq_wrap8` at every count. -/
theorem shlMultipliesByAPowerOfTwo : Obligations.ShlMultipliesByAPowerOfTwo := by
  intro s a b ra rb hw ha hb
  rw [← shlByte_eq_wrap8]
  exact aluBinary_completesWriting_three hw rfl rfl ha hb

/-- Settles O47: the ALU form with the right shift, a division by `shrByte_eq_wrap8` at every count. -/
theorem shrDividesByAPowerOfTwo : Obligations.ShrDividesByAPowerOfTwo := by
  intro s a b ra rb hw ha hb
  rw [← shrByte_eq_wrap8]
  exact aluBinary_completesWriting_three hw rfl rfl ha hb

/-! ## CMP and its flags (R113) -/

section Compare
variable (s : State) (va vb : Byte)

theorem State.compare_of_eq (h : va.toNat = vb.toNat) : s.compare va vb = { s with E := true } :=
  if_pos (BitVec.eq_of_toNat_eq h)

theorem State.compare_of_gt (h : vb.toNat < va.toNat) : s.compare va vb = { s with G := true } :=
  (if_neg (by bv_omega)).trans (if_pos h)

theorem State.compare_of_lt (h : va.toNat < vb.toNat) : s.compare va vb = { s with L := true } :=
  (if_neg (by bv_omega)).trans (if_neg (by bv_omega))

end Compare

theorem exec_cmp_names {s : State} {a b : Byte} {ra rb : RegIdx} (ha : RegNames s a ra) (hb : RegNames s b rb) :
    exec (.cmp a b) s = .next ((s.compare (s.reg ra) (s.reg rb)).advance (s.len .cmp)) :=
  withRegs_names ha hb _

/-- Settles O43: the comparison makes one flag true, and the advance by 3 is all else. -/
theorem cmpSetsExactlyOneFlag : Obligations.CmpSetsExactlyOneFlag := by
  intro s a b ra rb hw ha hb
  rw [exec_cmp_names ha hb, State.len_of_two_operands hw rfl, State.advance_eq, State.compare_pc]
  refine ⟨fun h => ?_, fun h => ?_, fun h => ?_⟩
  · rw [State.compare_of_eq s (s.reg ra) (s.reg rb) h]
  · rw [State.compare_of_gt s (s.reg ra) (s.reg rb) h]
  · rw [State.compare_of_lt s (s.reg ra) (s.reg rb) h]

/-- No update of an instruction clears a flag: the comparison is the only one that writes them, and it sets one (C2). -/
theorem Updates.flags_sticky {i : Instr} {s t : State} (h : Updates i s t) :
    (s.E = true → t.E = true) ∧ (s.G = true → t.G = true) ∧ (s.L = true → t.L = true) := by
  induction h with
  | start => exact ⟨id, id, id⟩
  | compare va vb _ _ ih =>
    obtain ⟨hE, hG, hL⟩ := ih
    rw [State.compare_E, State.compare_G, State.compare_L]
    exact ⟨fun h => by simp [hE h], fun h => by simp [hG h], fun h => by simp [hL h]⟩
  | setReg _ _ _ ih | writeMem _ _ _ ih | emit _ _ _ ih | halt _ _ ih | fault _ _ _ ih | advance _ _ ih
  | redirect _ _ ih => exact ih

/-- Settles O17: a step makes the updates of an instruction, or advances past an unrecognized byte. -/
theorem comparisonFlagsAreSticky : Obligations.ComparisonFlagsAreSticky := by
  intro s t h
  obtain ⟨_, _, ⟨_, _, _, hexec⟩ | ⟨_, _, _, rfl⟩⟩ := step_cases h
  · exact (exec_updates hexec).flags_sticky
  · exact ⟨id, id, id⟩

end Sys2Proof.Machine

/-! The statements of 42_stack.md (O48 to O53): the whole effect of PUSH, POP, CALL and RET, and the two pairs that undo
each other. -/

namespace Sys2Proof.Machine

/-! ## The stack pointer (R49) -/

section StackPointer
variable (s : State)

theorem State.decSp_eq : s.decSp = s.setReg sp (belowSp s) := by
  rw [belowSp_eq]
  rfl

theorem State.incSp_eq : s.incSp = s.setReg sp (aboveSp s) := by
  rw [aboveSp_eq]
  rfl

/-- Moving the stack pointer up undoes moving it down. -/
theorem aboveSp_of_reg_sp {s t : State} (h : t.reg sp = belowSp s) : aboveSp t = s.reg sp := by
  rw [aboveSp_eq, h, belowSp_eq, BitVec.sub_add_cancel]

/-- A register as PUSH and CALL read it, after the decrement (D6). -/
theorem State.decSp_reg_eq_ite (r : RegIdx) : s.decSp.reg r = if r = sp then belowSp s else s.regs[r] := by
  rw [State.decSp_reg, belowSp_eq]
  rfl

end StackPointer

/-! ## The byte stored (R42) -/

theorem storesByte_of_mem {s t : State} {slot v : Byte} (h : t.mem = (s.writeMem slot v).mem) :
    StoresByte s t slot v := by
  have reads : ∀ addr, t.readMem addr = (s.writeMem slot v).readMem addr := fun addr => by
    rw [State.readMem, h, State.readMem]
  exact ⟨by rw [reads, State.readMem_writeMem_same],
    fun addr ne => by rw [reads, State.readMem_writeMem_other _ _ _ _ ne]⟩

/-- Of two stores to one address the second stands. -/
theorem StoresByte.trans {s t u : State} {slot v w : Byte} (h : StoresByte s t slot v) (h' : StoresByte t u slot w) :
    StoresByte s u slot w := by
  obtain ⟨_, rest⟩ := h
  obtain ⟨stored, rest'⟩ := h'
  exact ⟨stored, fun addr ne => (rest' addr ne).trans (rest addr ne)⟩

/-- Which register an operand names depends on the parameters alone. -/
theorem RegNames.of_params {s t : State} {i : Byte} {r : RegIdx} (h : RegNames s i r) (hp : t.params = s.params) :
    RegNames t i r := by
  rwa [RegNames, hp]

/-! ## Each instruction -/

section Stack
variable {s : State} {a : Byte} {r : RegIdx}

theorem exec_push_names (h : RegNames s a r) :
    exec (.push a) s = .next ((s.decSp.writeMem (belowSp s) (s.decSp.reg r)).advance (s.len .push)) := by
  have top : s.decSp.reg sp = belowSp s := (s.decSp_reg_eq_ite sp).trans (if_pos rfl)
  rw [← top]
  exact withReg_names h _

theorem exec_pop_names (h : RegNames s a r) :
    exec (.pop a) s =
      .next (((s.setReg r (s.readMem (s.reg sp))).writeMem (s.reg sp) 0).incSp.advance (s.len .pop)) :=
  withReg_names h _

theorem exec_call_names (h : RegNames s a r) :
    exec (.call a) s =
      .next ((s.writeMem (belowSp s) (advancedPc s .call)).decSp.redirect (s.decSp.reg r)) := by
  rw [belowSp_eq, ← pcPlus_len]
  exact withReg_names h _

theorem exec_ret (s : State) : exec .ret s = .next (s.redirect (s.readMem (s.reg sp))).incSp := rfl

end Stack

/-- Settles O48: the store is at the decremented stack pointer, and its value is read after the decrement. -/
theorem pushStoresBelowTheStackPointer : Obligations.PushStoresBelowTheStackPointer := by
  intro s a r h
  refine ⟨_, exec_push_names h, ?_, pcPlus_len s .push, ?_, ⟨rfl, rfl, rfl⟩, rfl, rfl, rfl⟩
  · rw [State.decSp_eq]
    rfl
  · rw [← State.decSp_reg_eq_ite]
    exact storesByte_of_mem rfl

/-- Settles O49: the stack pointer that is incremented is the one left by the write to the destination. -/
theorem popLoadsAndClearsTheTop : Obligations.PopLoadsAndClearsTheTop := by
  intro s a r h
  refine ⟨_, exec_pop_names h, pcPlus_len s .pop, fun hr => ?_, ?_, storesByte_of_mem rfl, ⟨rfl, rfl, rfl⟩, rfl, rfl,
    rfl⟩
  · have kept := State.setReg_reg_other s r sp (s.readMem (s.reg sp)) hr.symm
    rw [State.advance_regs, State.incSp_regs, State.writeMem_reg, kept, aboveSp_eq]
    rfl
  · rintro rfl
    rw [State.advance_regs, State.incSp_regs, State.writeMem_reg, State.setReg_reg_same, State.writeMem_regs,
      State.setReg_regs, Vector.set_set, ← wrap8_toNat_add]
    rfl

/-- Settles O50: the return address is stored below the stack pointer, and the target is read after the decrement. -/
theorem callPushesTheReturnAddress : Obligations.CallPushesTheReturnAddress := by
  intro s a r h
  refine ⟨_, exec_call_names h, ?_, s.decSp_reg_eq_ite r, storesByte_of_mem rfl, ⟨rfl, rfl, rfl⟩, rfl, rfl, rfl⟩
  rw [State.decSp_eq]
  rfl

/-- Settles O51: a redirect and an increment update `pc` and the stack pointer alone. -/
theorem retPopsTheProgramCounter : Obligations.RetPopsTheProgramCounter := by
  intro s
  rw [exec_ret, State.incSp_eq]
  rfl

/-! ## The two pairs -/

theorem reg_sp_of_regs_set {s t : State} {v : Byte} (h : t.regs = s.regs.set sp v) : t.reg sp = v := by
  rw [State.reg, h]
  exact Vector.getElem_set_self _

/-- The stack pointer's round trip through a byte and back leaves every register as it was. -/
theorem regs_set_sp_restore (s : State) (v : Byte) : (s.regs.set sp v).set sp (s.reg sp) = s.regs := by
  rw [Vector.set_set]
  exact Vector.set_getElem_self _

/-- Settles O52: POP finds the byte where PUSH has stored it, and clears the byte of memory that PUSH has changed. -/
theorem pushThenPopMovesTheValue : Obligations.PushThenPopMovesTheValue := by
  intro s a b ra rb ha hb hra hrb
  obtain ⟨t, hpush, hregs, _, hstores, _, _, _, hparams⟩ := pushStoresBelowTheStackPointer s a ra ha
  obtain ⟨u, hpop, _, hregs', _, hclears, _⟩ := popLoadsAndClearsTheTop t b rb (hb.of_params hparams)
  have top : t.regs[sp] = belowSp s := reg_sp_of_regs_set hregs
  have hread : t.readMem (belowSp s) = s.regs[ra] := hstores.1.trans (if_neg hra)
  rw [top] at hclears
  refine ⟨t, u, hpush, hpop, ?_, hstores.trans hclears⟩
  rw [hregs' hrb, top, hread, aboveSp_of_reg_sp top, Vector.set_comm _ _ (Fin.val_ne_of_ne hrb), hregs,
    regs_set_sp_restore]

/-- Settles O53: RET finds the return address where CALL has stored it. -/
theorem callThenRetReturnsAfterTheCall : Obligations.CallThenRetReturnsAfterTheCall := by
  intro s a r h
  obtain ⟨t, hcall, hregs, _, ⟨hstored, _⟩, _⟩ := callPushesTheReturnAddress s a r h
  have top : t.regs[sp] = belowSp s := reg_sp_of_regs_set hregs
  refine ⟨t, _, hcall, retPopsTheProgramCounter t, ?_, ?_⟩
  · rw [top, hstored]
  · rw [aboveSp_of_reg_sp top, hregs, regs_set_sp_restore]

end Sys2Proof.Machine

/-! The statements of 43_jumps.md (O54 to O56): the whole next state of JMP, JEQ and JNE, from the jump form. -/

namespace Sys2Proof.Machine

section Jump
variable {s : State} {a : Byte} {r : RegIdx}

/-- The jump form as one field update: taken or not, it writes `pc` alone. -/
theorem jumpIf_names_eq (mn : Mnemonic) (taken : Bool) (h : RegNames s a r) :
    jumpIf mn taken a s = .next { s with pc := if taken then s.regs[r] else advancedPc s mn } := by
  rw [jumpIf_names mn taken h]
  cases taken with
  | true => rfl
  | false =>
    rw [← pcPlus_len]
    rfl

/-- The index check comes before the branch, so the fault does not depend on `taken` (R206). -/
theorem faultsOnBadRegister_of_jumpIf {i : Instr} {mn : Mnemonic} {taken : Bool}
    (h : exec i s = jumpIf mn taken a s) : FaultsOnBadRegister i s a := fun hf =>
  h.trans (withReg_faults hf _)

end Jump

/-- Settles O54: the jump form that is always taken. -/
theorem jmpSetsThePc : Obligations.JmpSetsThePc := fun _ _ =>
  ⟨fun _ h => jumpIf_names_eq .jmp true h, faultsOnBadRegister_of_jumpIf rfl⟩

/-- Settles O55: the jump form that is taken on `E`. -/
theorem jeqJumpsWhenEIsSet : Obligations.JeqJumpsWhenEIsSet := fun s _ =>
  ⟨fun _ h => jumpIf_names_eq .jeq s.E h, faultsOnBadRegister_of_jumpIf rfl⟩

/-- Settles O56: the jump form that is taken on the negation of `E`. -/
theorem jneJumpsWhenEIsClear : Obligations.JneJumpsWhenEIsClear := by
  refine fun s a => ⟨fun r h => ?_, faultsOnBadRegister_of_jumpIf rfl⟩
  simp only [← Bool.not_eq_true' s.E]
  exact jumpIf_names_eq .jne (!s.E) h

end Sys2Proof.Machine

/-! The statement of 44_store.md (O57): the whole next state of ST, from its updates, and its fault. -/

namespace Sys2Proof.Machine

/-- Settles O57: the store writes `mem` alone, and the advance is by the only length R63 leaves ST. -/
theorem stStoresAtTheOperandAddress : Obligations.StStoresAtTheOperandAddress := by
  refine fun s addr b hw => ⟨fun r h => ?_, fun hf => withReg_faults hf _⟩
  have hpc := (pcPlus_len s .st).trans (advancedPc_of_two_operands hw rfl)
  exact ⟨_, exec_st_names h, storesByte_of_mem rfl, rfl, hpc, ⟨rfl, rfl, rfl⟩, rfl, rfl, rfl⟩

end Sys2Proof.Machine

/-! The statement of 45_unrecognized.md (O11): the step on a byte outside the opcode map. -/

namespace Sys2Proof.Machine

/-- A fetch that begins with a byte outside the map decodes to that byte, with nothing left over (R180). -/
theorem decode_fetch_of_unmapped {s : State} (hw : s.params.opcodes.wf = true)
    (hu : ∀ mn, s.params.opcodes.byteOf mn ≠ s.readMem s.pc) :
    decode s.params.opcodes s.fetch = .ok (.unrecognized (s.readMem s.pc), []) := by
  rcases decode_fetch hw with ⟨i, _, hmapped⟩ | ⟨_, hd⟩
  · exact absurd hmapped (hu i.mnemonic)
  · exact hd

/-- Settles O11: the fetched bytes decode to the unrecognized byte, whose step is the generic advance by its length. -/
theorem unrecognizedByteIsANoOp : Obligations.UnrecognizedByteIsANoOp := by
  intro s hr hw hu
  rw [step_of_decode_unrecognized hr hw (decode_fetch_of_unmapped hw hu), State.advance_eq]

end Sys2Proof.Machine

/-! The statements of 60_exceptions.md (O22, O25, O26, O28, O7, O45): which register operand faults and what the fault
leaves, the zero-divisor halt, the terminal run states, and the output channel that nothing reads. -/

namespace Sys2Proof.Machine

/-! ## The first bad register operand (R204 to R206) -/

section Faults
variable {i : Instr} {s t : State}

/-- A list has one first bad operand, so the fault recorded is known from any split of the list that shows it. -/
theorem FaultsOn.eq_enterFaulted {before after : List Byte} {k : Byte} (h : FaultsOn (before ++ k :: after) s t)
    (hbefore : ∀ j ∈ before, ¬ RegFaults s j) (hk : RegFaults s k) : t = s.enterFaulted (.regIndexFault k) := by
  classical
  obtain ⟨before', k', after', hsplit, hbefore', hk', rfl⟩ := h
  have find_first {xs ys : List Byte} {x : Byte} (hxs : ∀ j ∈ xs, ¬ RegFaults s j) (hx : RegFaults s x) :
      (xs ++ x :: ys).find? (fun j => decide (RegFaults s j)) = some x :=
    List.find?_eq_some_iff_append.mpr ⟨by simpa using hx, xs, ys, rfl, by simpa using hxs⟩
  have same := find_first (ys := after) hbefore hk
  rw [hsplit, find_first hbefore' hk'] at same
  obtain rfl := Option.some.inj same
  rfl

theorem Updates.faults (h : Updates i s t) {f : FaultRecord} (hs : s.run ≠ .faulted f) (ht : t.run = .faulted f) :
    ∃ k ∈ checkedOperands i s, RegFaults s k ∧ f = .regIndexFault k := by
  induction h with
  | start => exact absurd ht hs
  | halt => simp at ht
  | fault _ hk hf => exact ⟨_, hk, hf, (RunState.faulted.inj ht).symm⟩
  | compare _ _ _ _ ih => exact ih (by rwa [State.compare_run] at ht)
  | setReg _ _ _ ih | writeMem _ _ _ ih | emit _ _ _ ih | advance _ _ ih | redirect _ _ ih => exact ih ht

/-- The syntactic check of an operand byte is the machine's. -/
theorem regOperandOk_iff (s : State) (k : Byte) :
    regOperandOk s.params.regIndexMode k = true ↔ ¬ RegFaults s k := by
  unfold regOperandOk RegFaults
  cases s.params.regIndexMode <;> simp

/-- Outside compatibility mode the checked operands are those of the encoding. -/
theorem checkedOperands_eq_regOperands (i : Instr) (hp : s.params.notOrXorAsAnd = false) :
    checkedOperands i s = i.regOperands := by
  simp [checkedOperands, hp]

end Faults

/-- Settles O25: an instruction with a bad operand cannot have its effect, so it faults, on the first bad one. -/
theorem firstBadRegisterOperandFaults : Obligations.FirstBadRegisterOperandFaults := by
  intro i s before after k hops hbefore hk
  obtain ⟨t, h⟩ := exec_completes i s
  rcases exec_cases h with heff | hfault
  · exact absurd hk (heff.operands_ok k (by simp [hops]))
  · rw [hops] at hfault
    rw [hfault.eq_enterFaulted hbefore hk] at h
    exact h

/-- Settles O26: of the updates only `fault` enters `faulted`. -/
theorem onlyABadRegisterOperandFaults : Obligations.OnlyABadRegisterOperandFaults := fun _ _ _ _ hs h ht =>
  (exec_updates h).faults (by simp [hs]) ht

/-- Settles O28: a fault needs a bad checked operand, which a well-formed instruction does not have. -/
theorem wellFormedInstructionsNeverFault : Obligations.WellFormedInstructionsNeverFault := by
  intro i s hwf hp hrun
  obtain ⟨t, h⟩ := exec_completes i s
  refine ⟨t, h, fun f ht => ?_⟩
  obtain ⟨k, hk, hf, _⟩ := onlyABadRegisterOperandFaults i s t f hrun h ht
  rw [checkedOperands_eq_regOperands i hp] at hk
  exact (regOperandOk_iff s k).mp (List.all_eq_true.mp hwf k hk) hf

/-! ## The zero divisor and the terminal states (R202, R210) -/

/-- Settles O45: the zero divisor leads to the branch that emits, halts and advances. -/
theorem modByZeroHaltsWithTheDiagnostic : Obligations.ModByZeroHaltsWithTheDiagnostic := fun _ _ _ _ _ ha hb hz =>
  ⟨_, exec_mod_zero ha hb hz, rfl⟩

/-- Settles O7: a step that answers a next state began in `running`. -/
theorem stoppedCoreTakesNoStep : Obligations.StoppedCoreTakesNoStep := fun _ hs _ h =>
  hs (step_cases h).1

/-! ## The output is not read back (R213) -/

/-- `s` with the events `o` emitted before its own. -/
def State.prependOut (o : List OutEvent) (s : State) : State := { s with out := o ++ s.out }

section Output
variable {s : State} {o : List OutEvent} {a b : Byte}

@[simp] theorem State.prependOut_params : (s.prependOut o).params = s.params := rfl

theorem State.emit_prependOut (ev : OutEvent) : (s.prependOut o).emit ev = (s.emit ev).prependOut o := by
  simp only [State.emit, State.prependOut, List.append_assoc]

theorem State.compare_prependOut (va vb : Byte) :
    (s.prependOut o).compare va vb = (s.compare va vb).prependOut o := by
  rw [State.compare_eq_withFlags, State.compare_eq_withFlags]
  rfl

/-- A register operand's check does not read the output: what is emitted before it stands before all it leads to, if
that holds of the instruction's effect. -/
theorem withReg_prependOut {k k' : RegIdx → Host.Outcome State Fault Refusal}
    (hk : ∀ r, k' r = mapNext (State.prependOut o) (k r)) :
    withReg a (s.prependOut o) k' = mapNext (State.prependOut o) (withReg a s k) := by
  rcases reg_names_or_faults s a with ⟨r, hr⟩ | hf
  · rw [withReg_names hr, withReg_names (s := s.prependOut o) hr, hk]
  · rw [withReg_faults hf, withReg_faults (s := s.prependOut o) hf]
    rfl

theorem withRegs_prependOut {k k' : RegIdx → RegIdx → Host.Outcome State Fault Refusal}
    (hk : ∀ ra rb, k' ra rb = mapNext (State.prependOut o) (k ra rb)) :
    withRegs a b (s.prependOut o) k' = mapNext (State.prependOut o) (withRegs a b s k) :=
  withReg_prependOut fun ra => withReg_prependOut (hk ra)

theorem aluBinary_prependOut (mn : Mnemonic) (f : Byte → Byte → Byte) :
    aluBinary mn f a b (s.prependOut o) = mapNext (State.prependOut o) (aluBinary mn f a b s) :=
  withRegs_prependOut fun _ _ => rfl

theorem jumpIf_prependOut (mn : Mnemonic) (taken : Bool) :
    jumpIf mn taken a (s.prependOut o) = mapNext (State.prependOut o) (jumpIf mn taken a s) :=
  withReg_prependOut fun _ => by cases taken <;> rfl

/-- Every instruction commutes with emitting events before it. -/
theorem exec_prependOut (i : Instr) (s : State) (o : List OutEvent) :
    exec i (s.prependOut o) = mapNext (State.prependOut o) (exec i s) := by
  cases i with
  | hlt | ret => rfl
  | push | pop | call | ldi | st => exact withReg_prependOut fun _ => rfl
  | prn =>
    refine withReg_prependOut fun _ => ?_
    rw [State.emit_prependOut]
    rfl
  | jmp | jeq | jne => exact jumpIf_prependOut _ _
  | cmp =>
    refine withRegs_prependOut fun _ _ => ?_
    rw [State.compare_prependOut]
    rfl
  | mod =>
    refine withRegs_prependOut fun ra rb => ?_
    by_cases hz : s.reg rb = 0
    · rw [if_pos hz]
      rw [if_pos (c := (s.prependOut o).reg rb = 0) hz, State.emit_prependOut]
      rfl
    · rw [if_neg hz]
      exact if_neg hz
  | add | mul | and | shl | shr => exact aluBinary_prependOut _ _
  | not =>
    by_cases hp : s.params.notOrXorAsAnd = true
    · rw [exec_not_compat hp, exec_not_compat (s := s.prependOut o) hp]
      exact aluBinary_prependOut _ _
    · rw [Bool.not_eq_true] at hp
      rw [exec_not hp, exec_not (s := s.prependOut o) hp]
      exact withReg_prependOut fun _ => rfl
  | or | xor =>
    by_cases hp : s.params.notOrXorAsAnd = true <;>
      simp only [exec, execOr, execXor, State.prependOut_params, hp] <;> exact aluBinary_prependOut _ _

end Output

/-- Settles O22: both runs are the run from an empty output, with other events put before what it emits. -/
theorem outputIsNeverReadBack : Obligations.OutputIsNeverReadBack := by
  intro i s t o h
  obtain ⟨u, hu⟩ := exec_completes i { s with out := [] }
  have run (o' : List OutEvent) : exec i { s with out := o' } = .next (u.prependOut o') := by
    have := exec_prependOut i { s with out := [] } o'
    rw [hu, State.prependOut, List.append_nil] at this
    exact this
  obtain rfl := Host.Outcome.next.inj (h.symm.trans (run s.out))
  exact ⟨u.out, rfl, run o⟩

end Sys2Proof.Machine
